-- ==== Sys2Proof/Word.lean ====
section
/-! DEFINITION. The word types of the fixed widths (00_scope.md R4, R6): a buffer byte, the 128-bit values, the digest. -/

namespace Sys2Proof

/-- A buffer byte. -/
abbrev Byte := BitVec 8

/-- A 128-bit value: the state H, a message block, a round key (BLOCKW = STATEW = 128, Table 00-1). -/
abbrev Block := BitVec 128

/-- The 64-bit result (DIGESTW = 64, Table 00-1). -/
abbrev Digest := BitVec 64

end Sys2Proof
end

