-- ==== Sys2Proof/Config.lean ====
section
/-! DEFINITION. The configuration parameters of 00_scope.md R4 (LENW, CIPHER) and the free values of the model. -/

namespace Sys2Proof

/-- Parameter CIPHER (00_scope.md R4, 40_compress.md R81): which pair of round functions an engine is built with.
PRESUMED, log 2: the source names no cipher.  A claim about every `Cipher` rests on no property of the rounds, since the
pairs `unnamed k` are uninterpreted; a claim that needs values assumes `aes` by name. -/
inductive Cipher where
  /-- The spec's default pair, the AES rounds of 40_compress.md R82 to R88. -/
  | aes
  /-- A pair of which nothing is known but that each function depends on its two operands alone. -/
  | unnamed (k : Nat)
  deriving DecidableEq, Repr

namespace Config

/-- The spec's default of parameter LENW (Table 00-1); the width an engine has after `State.reset`.
DESIGN CHOICE, log 1. -/
def lenw : Nat := 64

/-- Round1 of the `k`-th unnamed cipher: a total function of a value and a round key, otherwise free (R81, log 2). -/
opaque unnamedRound1 : Nat → Block → Block → Block

/-- Round2 of the `k`-th unnamed cipher (R81, log 2). -/
opaque unnamedRound2 : Nat → Block → Block → Block

/-- What H holds when the spec gives it no value (10_state.md R34; log 3): the `k`-th free draw. -/
opaque freeH : Nat → Block

/-- What HANDLED holds when the spec gives it no value (R34; log 3), for each LENW. -/
opaque freeHandled : (w : Nat) → Nat → BitVec w

/-- What LEN holds when the spec gives it no value (R34; log 3), for each LENW. -/
opaque freeLen : (w : Nat) → Nat → BitVec w

/-- What DIGEST holds when the spec gives it no value (R34, R132; log 3). -/
opaque freeDigest : Nat → Digest

/-- What CAUSE holds when the spec gives it no value (R34, R132; log 3). -/
opaque freeCause : Nat → BitVec 8

end Config

end Sys2Proof
end

