-- ==== Sys2Proof/Syntax.lean ====
section
/-! DEFINITION. The six operations of 30_encoding.md R65, one constructor per row of spec/opcode_table.json. -/

namespace Sys2Proof

/-- The complete operation set: one host command and five micro-operations (30_encoding.md R65). -/
inductive Instr where
  /-- `HASH len`: the host command, with its byte count (43_host_interface.md R131).  The count is a natural number because
  its width is the parameter LENW; `Instr.wf` bounds it. -/
  | hash (len : Nat)
  /-- `INIT` (41_iteration.md R100). -/
  | init
  /-- `ABS1` (41_iteration.md R101). -/
  | abs1
  /-- `ABS2` (41_iteration.md R102). -/
  | abs2
  /-- `ABSS r`, with the 4-bit field `n` of the word (41_iteration.md R103). -/
  | abss (r : BitVec 4)
  /-- `FOLD` (42_finalize.md R120). -/
  | fold
  deriving DecidableEq, Repr

end Sys2Proof
end

