-- ==== Sys2Proof/WellFormed.lean ====
section
/-! DEFINITION. Which operations have a word, at a given LENW. -/

namespace Sys2Proof

/-- The checks: `len` is an unsigned LENW-bit count (30_encoding.md R61), and `ABSS` carries 1 to 15, the word with
`n = 0` being reserved (R63, R66 (b)). -/
def Instr.wf (lenw : Nat) : Instr → Bool
  | .hash len => decide (len < 2 ^ lenw)
  | .init => true
  | .abs1 => true
  | .abs2 => true
  | .abss r => decide (r ≠ 0#4)
  | .fold => true

end Sys2Proof
end

