-- ==== Sys2Proof/Decode.lean ====
section
/-! DEFINITION. The word formats RQ, RS and MOP of 30_encoding.md, their decoders, and then the encoders. -/

namespace Sys2Proof

/-- The two kinds of word an engine executes.  "A word's format is known from the interface it is on, not from its bits"
(30_encoding.md R67), so the interface is part of the value.  RQ is 8 + LENW bits wide (R61), MOP is 8 (R63). -/
inductive Wire (lenw : Nat) where
  /-- A request word, from the request channel. -/
  | rq (word : BitVec (lenw + 8))
  /-- A micro-operation word, from the sequencer. -/
  | mop (word : BitVec 8)
  deriving DecidableEq, Repr

/-! ### Fields -/

/-- RQ bits [7:0], the command code (Table 30-1). -/
def rqCmd {lenw : Nat} (word : BitVec (lenw + 8)) : BitVec 8 := word.extractLsb' 0 8

/-- RQ bits [LENW+7:8], the length, with no scaling and no extension (Table 30-1, R64 (a)). -/
def rqLen {lenw : Nat} (word : BitVec (lenw + 8)) : BitVec lenw := word.extractLsb' 8 lenw

/-- MOP bits [7:4] (R63). -/
def mopOpc (word : BitVec 8) : BitVec 4 := word.extractLsb' 4 4

/-- MOP bits [3:0] (R63). -/
def mopN (word : BitVec 8) : BitVec 4 := word.extractLsb' 0 4

/-- RS bits [7:0], the status code (Table 30-2). -/
def rsCode (word : BitVec 72) : BitVec 8 := word.extractLsb' 0 8

/-- RS bits [71:8], the digest field (Table 30-2). -/
def rsDigest (word : BitVec 72) : Digest := word.extractLsb' 8 64

/-! ### Decoding -/

/-- The request word's command: HASH is `cmd = 0x01`, every other code is reserved (R61, R66 (a)). -/
def decodeRq {lenw : Nat} (word : BitVec (lenw + 8)) : Option Instr :=
  if rqCmd word = 0x01#8 then some (.hash (rqLen word).toNat) else none

/-- The micro-operation word of Table 30-3; every other word is reserved and has no meaning (R66 (b)). -/
def decodeMop (word : BitVec 8) : Option Instr :=
  if mopOpc word = 0x3#4 then
    if mopN word = 0#4 then none else some (.abss (mopN word))
  else if mopN word ≠ 0#4 then none
  else if mopOpc word = 0x0#4 then some .init
  else if mopOpc word = 0x1#4 then some .abs1
  else if mopOpc word = 0x2#4 then some .abs2
  else if mopOpc word = 0x4#4 then some .fold
  else none

/-- The decoder of both interfaces, total on every word. -/
def decode {lenw : Nat} : Wire lenw → Option Instr
  | .rq word => decodeRq word
  | .mop word => decodeMop word

/-- What a host reads in a response word (R62, R68). -/
inductive Response where
  /-- `OK digest`: code 0x00. -/
  | ok (digest : Digest)
  /-- `ERR InvalidLength`: code 0x01. -/
  | invalidLength
  /-- `ERR IllegalCommand`: code 0x02. -/
  | illegalCommand
  deriving DecidableEq, Repr

/-- Reading a response word: a code of 0x03 to 0xFF, or an error with a digest that is not zero, is never emitted
(R62, R66 (d)), and is no response. -/
def decodeRs (word : BitVec 72) : Option Response :=
  if rsCode word = 0x00#8 then some (.ok (rsDigest word))
  else if rsDigest word ≠ 0#64 then none
  else if rsCode word = 0x01#8 then some .invalidLength
  else if rsCode word = 0x02#8 then some .illegalCommand
  else none

/-! ### Encoding -/

/-- `HASH len` as a request word: `len ++ 0x01` (R61, 92_eei_decisions.md D7). -/
def encodeHash {lenw : Nat} (len : BitVec lenw) : BitVec (lenw + 8) := len ++ 0x01#8

/-- The word of an operation (Tables 30-1 and 30-3). -/
def encode (lenw : Nat) : Instr → Wire lenw
  | .hash len => .rq (encodeHash (BitVec.ofNat lenw len))
  | .init => .mop (0x0#4 ++ 0x0#4)
  | .abs1 => .mop (0x1#4 ++ 0x0#4)
  | .abs2 => .mop (0x2#4 ++ 0x0#4)
  | .abss r => .mop (0x3#4 ++ r)
  | .fold => .mop (0x4#4 ++ 0x0#4)

/-- `RS = DIGEST ++ CAUSE` (R62). -/
def encodeRs (digest : Digest) (cause : BitVec 8) : BitVec 72 := digest ++ cause

/-- The word of a response (R62). -/
def Response.encode : Response → BitVec 72
  | .ok digest => encodeRs digest 0x00#8
  | .invalidLength => encodeRs 0#64 0x01#8
  | .illegalCommand => encodeRs 0#64 0x02#8

/-! ### The opcode table as data -/

/-- A row of opcode_table.json: match and mask on the low 8 bits, and whether the row is of format RQ (R65). -/
structure OpcodeRow where
  isRq : Bool
  pattern : BitVec 8
  mask : BitVec 8
  deriving DecidableEq, Repr

/-- The row of each operation (R65). -/
def Instr.row : Instr → OpcodeRow
  | .hash _ => ⟨true, 0x01#8, 0xFF#8⟩
  | .init => ⟨false, 0x00#8, 0xFF#8⟩
  | .abs1 => ⟨false, 0x10#8, 0xFF#8⟩
  | .abs2 => ⟨false, 0x20#8, 0xFF#8⟩
  | .abss _ => ⟨false, 0x30#8, 0xF0#8⟩
  | .fold => ⟨false, 0x40#8, 0xFF#8⟩

/-- Does a word fit a row: the right format, and the masked low 8 bits equal to the pattern. -/
def OpcodeRow.fits {lenw : Nat} (row : OpcodeRow) : Wire lenw → Bool
  | .rq word => row.isRq && decide (rqCmd word &&& row.mask = row.pattern)
  | .mop word => !row.isRq && decide (word &&& row.mask = row.pattern)

/-! ### A word of the opcode table, numbered as the table numbers it -/

/-- The word of `nbits` bits, put on the interface it belongs to: up to 8 bits that are a defined MOP word come from the
sequencer, every other word is a request word.  DESIGN CHOICE, log 12: the table's numbering carries no interface. -/
def tableWire (lenw nbits w : Nat) : Wire lenw :=
  if nbits ≤ 8 then
    match decodeMop (BitVec.ofNat 8 w) with
    | some _ => .mop (BitVec.ofNat 8 w)
    | none => .rq (BitVec.ofNat (lenw + 8) w)
  else .rq (BitVec.ofNat (lenw + 8) w)

/-- The decoder on a word of the opcode table, at the default LENW (log 1, log 12). -/
def decodeTableWord (nbits w : Nat) : Option Instr := decode (tableWire Config.lenw nbits w)

end Sys2Proof
end

