-- ==== Sys2Proof/Machine/State.lean ====
section
/-! DEFINITION. The state of one engine with what stands at its interfaces, the faults, the refusals, and reset. -/

namespace Sys2Proof.Machine

/-- The 2-bit register PHASE (Table 10-2). -/
inductive Phase where
  /-- 0: no call in progress. -/
  | idle
  /-- 1: request accepted, LEN latched, H and HANDLED not yet initialised. -/
  | start
  /-- 2: blocks being folded into H. -/
  | absorb
  /-- 3: response pending, CAUSE and DIGEST valid. -/
  | done
  deriving DecidableEq, Repr

/-- The buffer contents: (offset, byte) pairs, offsets strictly rising.  An offset that is not listed holds nothing
(20_memory.md R40); a listed byte is never equal to "nothing", so the form is canonical (log 5). -/
abbrev Memory := List Host.Cell

/-- One read event (off, n, bytes) of 20_memory.md R41; `n` is the number of bytes. -/
structure ReadEvent where
  off : Nat
  bytes : List Byte
  deriving DecidableEq, Repr

/-- The observable result of a call that has ended: the response word, absent when reset abandoned the call
(70_reset_and_hazards.md R171), and its read events, oldest first (43_host_interface.md R136). -/
structure Run where
  response : Option (BitVec 72)
  reads : List ReadEvent
  deriving DecidableEq, Repr

/-- What the host and the platform do to an engine (43_host_interface.md R130, R134; 70_reset_and_hazards.md R170; log 6). -/
inductive HostMove (lenw : Nat) where
  /-- Put a buffer behind the read port, with its BUFSIZE. -/
  | present (bytes : List Byte) (size : BitVec lenw)
  /-- Offer a request word. -/
  | offer (word : BitVec (lenw + 8))
  /-- Take the response word. -/
  | take
  /-- Write one byte of the presented buffer. -/
  | write (off : Nat) (byte : Byte)
  /-- Apply reset. -/
  | reset
  /-- Do nothing while the engine takes one step, if it has one. -/
  | pause
  deriving DecidableEq, Repr

/-- One engine of parameter LENW = `lenw`: the six registers of Table 10-1, its CIPHER, what stands at its three
interfaces, and the record of what can be observed. -/
structure Engine (lenw : Nat) where
  /-- H, the running state and the next round key (10_state.md R21). -/
  h : Block
  /-- HANDLED, the offset of the next unread byte (R22). -/
  handled : BitVec lenw
  /-- LEN, the length operand of the call (R23). -/
  len : BitVec lenw
  /-- DIGEST, the result (R24). -/
  digest : Digest
  /-- PHASE (R25). -/
  phase : Phase
  /-- CAUSE, the status code of the pending response (R26). -/
  cause : BitVec 8
  /-- Parameter CIPHER, fixed per instance (00_scope.md R4, 40_compress.md R81). -/
  cipher : Cipher
  /-- The buffer behind the read port (20_memory.md R40). -/
  buf : Memory
  /-- The side input BUFSIZE (10_state.md R31). -/
  bufsize : BitVec lenw
  /-- The request channel: the word the host offers and the engine has not yet taken (43_host_interface.md R130 (a)). -/
  rq : Option (BitVec (lenw + 8))
  /-- The host's moves to come, oldest first (log 6). -/
  host : List (HostMove lenw)
  /-- The MODEL's record: the read events of the call in progress, oldest first (20_memory.md R41; log 15). -/
  reads : List ReadEvent
  /-- The MODEL's record: the calls that have ended, oldest first (43_host_interface.md R136; log 15). -/
  runs : List Run
  /-- The MODEL's counter of free values drawn (log 3). -/
  draws : Nat
  deriving DecidableEq, Repr

/-- The machine: an engine of any LENW (00_scope.md R4 "a named parameter the model takes as an argument"). -/
structure State where
  /-- Parameter LENW, fixed per instance. -/
  lenw : Nat
  /-- The engine. -/
  eng : Engine lenw
  deriving DecidableEq, Repr

/-- Why a machine stops with no next state. -/
inductive Fault where
  /-- Raised by `exec` alone: the operation's precondition on PHASE does not hold (R100 to R103, R120, R131), and the spec
  gives it no behaviour there.  Safe: the sequencer and the request channel never issue it so (R104, R133). -/
  | wrongPhase
  /-- Raised by `exec` alone: the operation's precondition on LEN - HANDLED does not hold (R101 to R103, R120).
  Safe: the sequencer never selects it so (R104). -/
  | wrongRemainder
  /-- Raised by a read whose range is not inside 0 .. BUFSIZE-1: "the engine has no step: stuck" (20_memory.md R41).
  Safe: no bytes are invented. -/
  | readOutsideBuffer
  /-- Raised by a read the buffer port does not answer, a breach of host duty H1: "the engine is stuck in ABSORB for good"
  (70_reset_and_hazards.md R176).  Safe: no bytes are invented. -/
  | portSilent
  /-- Raised by `step`: neither the engine nor the host has an enabled step: idle with nothing offered (60_exceptions.md
  R163), a response nobody takes (43_host_interface.md R132), or a host that has deadlocked itself (R133).
  Safe: the hardware stays where it is. -/
  | noEnabledStep
  deriving DecidableEq, Repr

/-- Why the model gives no meaning. -/
inductive Refusal where
  /-- Raised by `exec`'s arms for an instruction without a meaning; no arm of this model does.  Safe. -/
  | notModelled (mnemonic : String)
  /-- Raised for a reserved MOP word: "a model's step function refuses it" (30_encoding.md R66 (b)).
  Safe: the sequencer never produces one. -/
  | reservedMop
  deriving DecidableEq, Repr

/-- The outcome of an operation. -/
abbrev Result (α : Type) := Host.Outcome α Fault Refusal

/-- The machine right after reset and before the host has done anything: PHASE = IDLE, every other register without a
value of the spec's (10_state.md R34, 70_reset_and_hazards.md R170), here a free value (log 3); nothing offered, nothing
presented, nothing observed; LENW and CIPHER at the spec's defaults (log 1, log 2, log 5). -/
def State.reset : State where
  lenw := Config.lenw
  eng :=
    { h := Config.freeH 0
      handled := Config.freeHandled Config.lenw 0
      len := Config.freeLen Config.lenw 0
      digest := Config.freeDigest 0
      phase := .idle
      cause := Config.freeCause 0
      cipher := .aes
      buf := []
      bufsize := 0
      rq := none
      host := []
      reads := []
      runs := []
      draws := 1 }

end Sys2Proof.Machine
end

