-- ==== Sys2Proof/Machine/Operands.lean ====
section
/-! DEFINITION. Bytes of a block, block assembly (Pack), operand assembly and the bookkeeping arithmetic. -/

namespace Sys2Proof.Machine

/-- Byte j of a 128-bit value, `x[8j+7:8j]` (00_scope.md R6). -/
def byteOf (x : Block) (j : Nat) : Byte := x.extractLsb' (8 * j) 8

/-- `Pack(b[0..r-1])`: byte j of the block is `b[j]`, the lowest offset in the low-order byte, and every byte from r on is
zero (20_memory.md R43, R44). -/
def pack : List Byte → Block
  | [] => 0
  | b :: bs => (pack bs <<< 8) ||| b.setWidth 128

/-- `rem = LEN - HANDLED`, the unsigned LENW-bit subtraction of 41_iteration.md R104 (log 16). -/
def remaining {lenw : Nat} (len handled : BitVec lenw) : BitVec lenw := len - handled

/-- `HANDLED + n` (10_state.md R22; log 16). -/
def advance {lenw : Nat} (handled : BitVec lenw) (n : Nat) : BitVec lenw := handled + BitVec.ofNat lenw n

/-- `(LEN - HANDLED)[3:0]`, the operand the sequencer gives ABSS (30_encoding.md R64 (b)). -/
def shortCount {lenw : Nat} (len handled : BitVec lenw) : BitVec 4 := (remaining len handled).extractLsb' 0 4

/-- The value of each PHASE in its 2-bit register (Table 10-2). -/
def Phase.code : Phase → BitVec 2
  | .idle => 0
  | .start => 1
  | .absorb => 2
  | .done => 3

end Sys2Proof.Machine
end

