-- ==== Sys2Proof/Machine/Cipher.lean ====
section
/-! DEFINITION. The compression primitive (40_compress.md R80) over the parameter CIPHER, and the default AES rounds
(R82 to R88, PRESUMED from general knowledge by the spec, log 2). -/

namespace Sys2Proof.Machine

/-! ### The default instance -/

/-- `s[r][c] = x[r + 4c]`: the 4-by-4 byte matrix of a value (R82). -/
def cell (x : Block) (r c : Nat) : Byte := byteOf x (r + 4 * c)

/-- The value whose matrix has `f r c` at row r and column c (R82). -/
def ofCells (f : Nat → Nat → Byte) : Block := pack ((List.range 16).map fun j => f (j % 4) (j / 4))

/-- Table 40-1, a row for each high digit of the byte (R83). -/
def sboxTable : List (List Byte) :=
  [[0x63, 0x7c, 0x77, 0x7b, 0xf2, 0x6b, 0x6f, 0xc5, 0x30, 0x01, 0x67, 0x2b, 0xfe, 0xd7, 0xab, 0x76],
   [0xca, 0x82, 0xc9, 0x7d, 0xfa, 0x59, 0x47, 0xf0, 0xad, 0xd4, 0xa2, 0xaf, 0x9c, 0xa4, 0x72, 0xc0],
   [0xb7, 0xfd, 0x93, 0x26, 0x36, 0x3f, 0xf7, 0xcc, 0x34, 0xa5, 0xe5, 0xf1, 0x71, 0xd8, 0x31, 0x15],
   [0x04, 0xc7, 0x23, 0xc3, 0x18, 0x96, 0x05, 0x9a, 0x07, 0x12, 0x80, 0xe2, 0xeb, 0x27, 0xb2, 0x75],
   [0x09, 0x83, 0x2c, 0x1a, 0x1b, 0x6e, 0x5a, 0xa0, 0x52, 0x3b, 0xd6, 0xb3, 0x29, 0xe3, 0x2f, 0x84],
   [0x53, 0xd1, 0x00, 0xed, 0x20, 0xfc, 0xb1, 0x5b, 0x6a, 0xcb, 0xbe, 0x39, 0x4a, 0x4c, 0x58, 0xcf],
   [0xd0, 0xef, 0xaa, 0xfb, 0x43, 0x4d, 0x33, 0x85, 0x45, 0xf9, 0x02, 0x7f, 0x50, 0x3c, 0x9f, 0xa8],
   [0x51, 0xa3, 0x40, 0x8f, 0x92, 0x9d, 0x38, 0xf5, 0xbc, 0xb6, 0xda, 0x21, 0x10, 0xff, 0xf3, 0xd2],
   [0xcd, 0x0c, 0x13, 0xec, 0x5f, 0x97, 0x44, 0x17, 0xc4, 0xa7, 0x7e, 0x3d, 0x64, 0x5d, 0x19, 0x73],
   [0x60, 0x81, 0x4f, 0xdc, 0x22, 0x2a, 0x90, 0x88, 0x46, 0xee, 0xb8, 0x14, 0xde, 0x5e, 0x0b, 0xdb],
   [0xe0, 0x32, 0x3a, 0x0a, 0x49, 0x06, 0x24, 0x5c, 0xc2, 0xd3, 0xac, 0x62, 0x91, 0x95, 0xe4, 0x79],
   [0xe7, 0xc8, 0x37, 0x6d, 0x8d, 0xd5, 0x4e, 0xa9, 0x6c, 0x56, 0xf4, 0xea, 0x65, 0x7a, 0xae, 0x08],
   [0xba, 0x78, 0x25, 0x2e, 0x1c, 0xa6, 0xb4, 0xc6, 0xe8, 0xdd, 0x74, 0x1f, 0x4b, 0xbd, 0x8b, 0x8a],
   [0x70, 0x3e, 0xb5, 0x66, 0x48, 0x03, 0xf6, 0x0e, 0x61, 0x35, 0x57, 0xb9, 0x86, 0xc1, 0x1d, 0x9e],
   [0xe1, 0xf8, 0x98, 0x11, 0x69, 0xd9, 0x8e, 0x94, 0x9b, 0x1e, 0x87, 0xe9, 0xce, 0x55, 0x28, 0xdf],
   [0x8c, 0xa1, 0x89, 0x0d, 0xbf, 0xe6, 0x42, 0x68, 0x41, 0x99, 0x2d, 0x0f, 0xb0, 0x54, 0xbb, 0x16]]

/-- `SBOX[a]`: the entry for byte 0xRC stands in row Rx, column xC of Table 40-1 (R83). -/
def sbox (a : Byte) : Byte := (sboxTable.getD (a.toNat / 16) []).getD (a.toNat % 16) 0

/-- `2·a = ((a << 1) and 0xFF) xor (0x1B if a[7] = 1 else 0x00)` (R85). -/
def xtime (a : Byte) : Byte := (a <<< 1) ^^^ (if a.getLsbD 7 then 0x1B#8 else 0x00#8)

/-- `3·a = xtime(a) xor a` (R85). -/
def times3 (a : Byte) : Byte := xtime a ^^^ a

/-- The product of two bytes in GF(2^8) modulo 0x11B (R83), by the bits of the second, `n` of them from the top. -/
def gfMulBits (a b : Byte) : Nat → Byte
  | 0 => 0
  | n + 1 => xtime (gfMulBits a b n) ^^^ (if b.getLsbD (7 - n) then a else 0)

/-- Multiplication in GF(2^8) modulo 0x11B (R83). -/
def gfMul (a b : Byte) : Byte := gfMulBits a b 8

/-- `SBOX[a]` from an inverse `b` of `a`, by the affine map of R83. -/
def sboxAffine (b : Byte) : Byte :=
  b ^^^ b.rotateLeft 1 ^^^ b.rotateLeft 2 ^^^ b.rotateLeft 3 ^^^ b.rotateLeft 4 ^^^ 0x63#8

/-- SubBytes: SBOX on each of the 16 bytes (R83). -/
def subBytes (x : Block) : Block := ofCells fun r c => sbox (cell x r c)

/-- ShiftRows: `s'[r][c] = s[r][(c + r) mod 4]` (R84). -/
def shiftRows (x : Block) : Block := ofCells fun r c => cell x r ((c + r) % 4)

/-- One row of a column's transformation, from the column's four bytes (R85). -/
def mixRow (a0 a1 a2 a3 : Byte) : Nat → Byte
  | 0 => xtime a0 ^^^ times3 a1 ^^^ a2 ^^^ a3
  | 1 => a0 ^^^ xtime a1 ^^^ times3 a2 ^^^ a3
  | 2 => a0 ^^^ a1 ^^^ xtime a2 ^^^ times3 a3
  | _ => times3 a0 ^^^ a1 ^^^ a2 ^^^ xtime a3

/-- MixColumns, the "diffusion step", on each column by itself (R85). -/
def mixColumns (x : Block) : Block :=
  ofCells fun r c => mixRow (cell x 0 c) (cell x 1 c) (cell x 2 c) (cell x 3 c) r

/-- AddRoundKey: bitwise exclusive or (R86). -/
def addRoundKey (x k : Block) : Block := x ^^^ k

/-- The AES standard round (R87). -/
def aesRound1 (x k : Block) : Block := addRoundKey (mixColumns (shiftRows (subBytes x))) k

/-- The AES final round, without MixColumns (R88). -/
def aesRound2 (x k : Block) : Block := addRoundKey (shiftRows (subBytes x)) k

/-! ### The primitive, for any CIPHER -/

/-- Round1 of a CIPHER: "one standard round of the block cipher's encryption" (R80, R81). -/
def round1 : Cipher → Block → Block → Block
  | .aes => aesRound1
  | .unnamed k => Config.unnamedRound1 k

/-- Round2 of a CIPHER: "the cipher's final encryption round" (R80, R81). -/
def round2 : Cipher → Block → Block → Block
  | .aes => aesRound2
  | .unnamed k => Config.unnamedRound2 k

/-- `Compress(M, K) = Round2(Round1(M xor K, K), K)`: two rounds, one key, no feed-forward (R80, R89). -/
def compress (c : Cipher) (m k : Block) : Block := round2 c (round1 c (m ^^^ k) k) k

/-- `Fold(H) = H[63:0] xor H[127:64]` (42_finalize.md R121). -/
def foldBlock (h : Block) : Digest := h.extractLsb' 0 64 ^^^ h.extractLsb' 64 64

end Sys2Proof.Machine
end

