-- ==== Sys2Proof/Machine/Flags.lean ====
section
/-! DEFINITION. The engine has no flags (10_state.md R29): the three conditions the sequencer tests, "recomputed from LEN
and HANDLED at each step" and stored nowhere. -/

namespace Sys2Proof.Machine

/-- `LEN - HANDLED >= 32`. -/
def pairLeft {lenw : Nat} (len handled : BitVec lenw) : Bool := decide (32 ≤ (remaining len handled).toNat)

/-- `LEN - HANDLED >= 16`. -/
def blockLeft {lenw : Nat} (len handled : BitVec lenw) : Bool := decide (16 ≤ (remaining len handled).toNat)

/-- `HANDLED != LEN`. -/
def anyLeft {lenw : Nat} (len handled : BitVec lenw) : Bool := decide (handled ≠ len)

end Sys2Proof.Machine
end

