-- ==== Sys2Proof/Machine/Ops.lean ====
section
/-! DEFINITION. The named operations: the buffer and its read port, absorbing a block, taking an exception and returning
from it by the response, reset. -/

namespace Sys2Proof.Machine

/-! ### The buffer -/

/-- The byte the buffer holds at an offset, if it holds one (20_memory.md R40; log 5). -/
def memByte : Memory → Nat → Option Byte
  | [], _ => none
  | (a, b) :: m, off => if a = off then some b else memByte m off

/-- The `n` bytes from an offset, in offset order, if the buffer holds them all (20_memory.md R41). -/
def memBytes (m : Memory) : Nat → Nat → Option (List Byte)
  | _, 0 => some []
  | off, n + 1 =>
    match memByte m off, memBytes m (off + 1) n with
    | some b, some bs => some (b :: bs)
    | _, _ => none

/-- One byte written by the host; the engine never writes (20_memory.md R42). -/
def memWrite : Memory → Nat → Byte → Memory
  | [], off, b => [(off, b)]
  | (a, c) :: m, off, b =>
    if off < a then (off, b) :: (a, c) :: m
    else if off = a then (off, b) :: m
    else (a, c) :: memWrite m off b

/-- The buffer that holds a byte sequence from an offset on. -/
def memOf : Nat → List Byte → Memory
  | _, [] => []
  | off, b :: bs => (off, b) :: memOf (off + 1) bs

/-- Every listed offset is at least `lo`, and they rise strictly. -/
def memRises (lo : Nat) : Memory → Bool
  | [] => true
  | (a, _) :: m => decide (lo ≤ a) && memRises (a + 1) m

/-- The canonical form of a buffer: offsets strictly rising (log 5). -/
abbrev Memory.wf (m : Memory) : Bool := memRises 0 m

/-- No listed offset is at or beyond `size`: "every other offset holds nothing" (20_memory.md R40). -/
def memBelow (size : Nat) (m : Memory) : Bool := m.all fun cell => decide (cell.1 < size)

/-! ### The read port -/

/-- `MemRead(off, n)` (20_memory.md R41): the bytes, or the reason the engine is stuck. -/
def memRead {lenw : Nat} (y : Engine lenw) (off n : Nat) : Except Fault (List Byte) :=
  if 1 ≤ n ∧ n ≤ 16 ∧ off + n ≤ y.bufsize.toNat then
    match memBytes y.buf off n with
    | some bs => .ok bs
    | none => .error .portSilent
  else .error .readOutsideBuffer

/-! ### Absorbing -/

/-- The engine after `n` bytes read at HANDLED are absorbed: Compress of their Pack with the old H as the round key, HANDLED
advanced, the read recorded (41_iteration.md R101, R103; 20_memory.md R41). -/
def absorbed {lenw : Nat} (n : Nat) (bs : List Byte) (y : Engine lenw) : Engine lenw :=
  { y with
    h := compress y.cipher (pack bs) y.h
    handled := advance y.handled n
    reads := y.reads ++ [⟨y.handled.toNat, bs⟩] }

/-- Absorb the `n` bytes at HANDLED as one block (41_iteration.md R101, R103). -/
def absorb {lenw : Nat} (n : Nat) (y : Engine lenw) : Result (Engine lenw) :=
  match memRead y y.handled.toNat n with
  | .error f => .fault f
  | .ok bs => .next (absorbed n bs y)

/-! ### Exceptions and the response -/

/-- The two exceptions (Table 60-1). -/
inductive Exn where
  | invalidLength
  | illegalCommand
  deriving DecidableEq, Repr

/-- `code(E)` (Table 60-1). -/
def Exn.code : Exn → BitVec 8
  | .invalidLength => 0x01#8
  | .illegalCommand => 0x02#8

/-- Taking an exception: CAUSE, DIGEST and PHASE, "and nothing else" (60_exceptions.md R155). -/
def raise {lenw : Nat} (e : Exn) (y : Engine lenw) : Engine lenw :=
  { y with cause := e.code, digest := 0, phase := .done }

/-- Every register but PHASE loses its value: each holds a free value from here on (10_state.md R34,
43_host_interface.md R136; log 3). -/
def forget {lenw : Nat} (y : Engine lenw) : Engine lenw :=
  { y with
    h := Config.freeH y.draws
    handled := Config.freeHandled lenw y.draws
    len := Config.freeLen lenw y.draws
    digest := Config.freeDigest y.draws
    cause := Config.freeCause y.draws
    draws := y.draws + 1 }

/-- `respond()`: emit `RS = DIGEST ++ CAUSE` and return to IDLE; the return from an exception is the same step
(43_host_interface.md R132, 60_exceptions.md R156). -/
def respond {lenw : Nat} (y : Engine lenw) : Engine lenw :=
  { forget y with
    phase := .idle
    reads := []
    runs := y.runs ++ [⟨some (encodeRs y.digest y.cause), y.reads⟩] }

/-- Reset: PHASE to IDLE, the registers lose their values, a call in progress is abandoned with no response
(70_reset_and_hazards.md R170, R171; log 18). -/
def applyReset {lenw : Nat} (y : Engine lenw) : Engine lenw :=
  { forget y with
    phase := .idle
    reads := []
    runs := if y.phase = .idle then y.runs else y.runs ++ [⟨none, y.reads⟩] }

/-! ### Between an engine and the machine -/

/-- A second operation after a first, when the first gives a next state. -/
def andThen {α β : Type} (r : Result α) (f : α → Result β) : Result β :=
  match r with
  | .next a => f a
  | .fault x => .fault x
  | .refused x => .refused x

/-- An operation on the engine as an operation on the machine. -/
def State.lift (s : State) (r : Result (Engine s.lenw)) : Result State :=
  match r with
  | .next y => .next ⟨s.lenw, y⟩
  | .fault f => .fault f
  | .refused r => .refused r

end Sys2Proof.Machine
end

