-- ==== Sys2Proof/Machine/Finalize.lean ====
section
/-! DEFINITION. The micro-operation FOLD (42_finalize.md R120). -/

namespace Sys2Proof.Machine

/-- FOLD: DIGEST from H, PHASE to DONE; H keeps its bits until the response (R120, R122; log 4). -/
def foldOp {lenw : Nat} (y : Engine lenw) : Result (Engine lenw) :=
  if y.phase ≠ .absorb then .fault .wrongPhase
  else if y.handled = y.len then .next { y with digest := foldBlock y.h, phase := .done }
  else .fault .wrongRemainder

/-- FOLD. -/
def execFold (s : State) : Result State := s.lift (foldOp s.eng)

end Sys2Proof.Machine
end

