-- ==== Sys2Proof/Machine/HostCommand.lean ====
section
/-! DEFINITION. The host command HASH (43_host_interface.md R131). -/

namespace Sys2Proof.Machine

/-- Acceptance of `HASH len`: InvalidLength when `len > BUFSIZE` (60_exceptions.md R151), else LEN, CAUSE and PHASE
(R131).  A count of LENW bits or more than BUFSIZE is compared as the number it is (log 17). -/
def acceptHash {lenw : Nat} (len : Nat) (y : Engine lenw) : Result (Engine lenw) :=
  if y.phase ≠ .idle then .fault .wrongPhase
  else if y.bufsize.toNat < len then .next (raise .invalidLength y)
  else .next { y with len := BitVec.ofNat lenw len, cause := 0x00#8, phase := .start }

/-- HASH. -/
def execHash (len : Nat) (s : State) : Result State := s.lift (acceptHash len s.eng)

end Sys2Proof.Machine
end

