-- ==== Sys2Proof/Machine/Iteration.lean ====
section
/-! DEFINITION. The micro-operations INIT, ABS1, ABS2 and ABSS (41_iteration.md R100 to R103). -/

namespace Sys2Proof.Machine

/-- INIT: H and HANDLED to zero, PHASE to ABSORB; the old values are not read (R100). -/
def initOp {lenw : Nat} (y : Engine lenw) : Result (Engine lenw) :=
  if y.phase = .start then .next { y with h := 0, handled := 0, phase := .absorb } else .fault .wrongPhase

/-- ABS1 by its definition, which "itself needs only LEN - HANDLED >= 16" (R101). -/
def abs1Op {lenw : Nat} (y : Engine lenw) : Result (Engine lenw) :=
  if y.phase ≠ .absorb then .fault .wrongPhase
  else if 16 ≤ (remaining y.len y.handled).toNat then absorb 16 y
  else .fault .wrongRemainder

/-- ABS2: two blocks in order, the result of the first being the round key of the second; one step (R102; log 14). -/
def abs2Op {lenw : Nat} (y : Engine lenw) : Result (Engine lenw) :=
  if y.phase ≠ .absorb then .fault .wrongPhase
  else if 32 ≤ (remaining y.len y.handled).toNat then
    match memRead y y.handled.toNat 16 with
    | .error f => .fault f
    | .ok b =>
      match memRead y (advance y.handled 16).toNat 16 with
      | .error f => .fault f
      | .ok c =>
        .next { y with
          h := compress y.cipher (pack c) (compress y.cipher (pack b) y.h)
          handled := advance y.handled 32
          reads := y.reads ++ [⟨y.handled.toNat, b⟩, ⟨(advance y.handled 16).toNat, c⟩] }
  else .fault .wrongRemainder

/-- ABSS r: the short block of exactly `r = LEN - HANDLED` bytes (R103); r = 0 is the reserved word 0x30 (30_encoding.md
R66 (b)). -/
def abssOp {lenw : Nat} (r : BitVec 4) (y : Engine lenw) : Result (Engine lenw) :=
  if r = 0#4 then .refused .reservedMop
  else if y.phase ≠ .absorb then .fault .wrongPhase
  else if (remaining y.len y.handled).toNat = r.toNat then absorb r.toNat y
  else .fault .wrongRemainder

/-- INIT. -/
def execInit (s : State) : Result State := s.lift (initOp s.eng)

/-- ABS1. -/
def execAbs1 (s : State) : Result State := s.lift (abs1Op s.eng)

/-- ABS2. -/
def execAbs2 (s : State) : Result State := s.lift (abs2Op s.eng)

/-- ABSS. -/
def execAbss (r : BitVec 4) (s : State) : Result State := s.lift (abssOp r s.eng)

end Sys2Proof.Machine
end

