-- ==== Sys2Proof/Machine/Dispatch.lean ====
section
/-! DEFINITION. The dispatch: one arm per constructor of Instr. -/

namespace Sys2Proof.Machine

def exec (i : Instr) (s : State) : Host.Outcome State Fault Refusal :=
  match i with
  | .hash len => Sys2Proof.Machine.execHash len s
  | .init => Sys2Proof.Machine.execInit s
  | .abs1 => Sys2Proof.Machine.execAbs1 s
  | .abs2 => Sys2Proof.Machine.execAbs2 s
  | .abss r => Sys2Proof.Machine.execAbss r s
  | .fold => Sys2Proof.Machine.execFold s

end Sys2Proof.Machine
end

