-- ==== Sys2Proof/Machine/Sequencer.lean ====
section
/-! DEFINITION. What executes next: the sequencer (41_iteration.md R104), the fetch of a word, and the engine's step. -/

namespace Sys2Proof.Machine

/-- The micro-operation word in phase ABSORB, from LEN and HANDLED alone (R104, R64 (b)). -/
def selectMop {lenw : Nat} (len handled : BitVec lenw) : BitVec 8 :=
  if pairLeft len handled then 0x20#8
  else if blockLeft len handled then 0x10#8
  else if anyLeft len handled then 0x3#4 ++ shortCount len handled
  else 0x40#8

/-- The word the engine executes next, if it has an enabled step: the offered request in IDLE, INIT in START, the
sequencer's choice in ABSORB; in DONE the engine only holds its response (Table 10-2, R104, 43_host_interface.md R131,
R132). -/
def fetch {lenw : Nat} (y : Engine lenw) : Option (Wire lenw) :=
  match y.phase with
  | .idle => y.rq.map .rq
  | .start => some (.mop 0x00#8)
  | .absorb => some (.mop (selectMop y.len y.handled))
  | .done => none

/-- A request word is taken from its channel by the step that executes it; a micro-operation word stands in no channel
(43_host_interface.md R130, R131). -/
def taken {lenw : Nat} (wire : Wire lenw) (y : Engine lenw) : Engine lenw :=
  match wire with
  | .rq _ => { y with rq := none }
  | .mop _ => y

/-- Execute a word: its instruction; a reserved request word raises IllegalCommand (60_exceptions.md R152); a reserved
micro-operation word is refused (30_encoding.md R66 (b)). -/
def runWire {lenw : Nat} (wire : Wire lenw) (y : Engine lenw) : Result State :=
  match decode wire with
  | some i => exec i ⟨lenw, taken wire y⟩
  | none =>
    match wire with
    | .rq _ => .next ⟨lenw, raise .illegalCommand (taken wire y)⟩
    | .mop _ => .refused .reservedMop

/-- The engine's step: execute the word it fetches, or nothing is enabled. -/
def engineStep {lenw : Nat} (y : Engine lenw) : Result State :=
  match fetch y with
  | some wire => runWire wire y
  | none => .fault .noEnabledStep

end Sys2Proof.Machine
end

