-- ==== Sys2Proof/Machine/HostAgent.lean ====
section
/-! DEFINITION. The host's moves and whose turn it is (43_host_interface.md R130 to R134; log 6, log 7). -/

namespace Sys2Proof.Machine

/-- Is a host move enabled: a buffer is presented between calls (duty H2), one word is offered at a time (R130), a
response is taken in DONE (R132); writing its own buffer and asserting reset are always open to the host. -/
def moveEnabled {lenw : Nat} (y : Engine lenw) : HostMove lenw → Bool
  | .present _ _ => decide (y.phase = .idle) && y.rq.isNone
  | .offer _ => y.rq.isNone
  | .take => decide (y.phase = .done)
  | .write _ _ => true
  | .reset => true
  | .pause => true

/-- Put a buffer and its BUFSIZE at the read port; no offset at or beyond BUFSIZE holds a byte (20_memory.md R40). -/
def presentBuffer {lenw : Nat} (bytes : List Byte) (size : BitVec lenw) (y : Engine lenw) : Engine lenw :=
  { y with buf := memOf 0 (bytes.take size.toNat), bufsize := size }

/-- The host writes a byte of its buffer (Table 43-1); an offset at or beyond BUFSIZE is no byte of it (log 7).
DESIGN CHOICE, log 25: the write is visible to every read after it, and a read returns the byte written last; which of the
host's values a read returns when duty H2 is broken "is not determined" (20_memory.md R51). -/
def writeBuffer {lenw : Nat} (off : Nat) (byte : Byte) (y : Engine lenw) : Engine lenw :=
  if off < y.bufsize.toNat then { y with buf := memWrite y.buf off byte } else y

/-- The effect of an enabled host move. -/
def hostMove {lenw : Nat} (y : Engine lenw) : HostMove lenw → Engine lenw
  | .present bytes size => presentBuffer bytes size y
  | .offer word => { y with rq := some word }
  | .take => respond y
  | .write off byte => writeBuffer off byte y
  | .reset => applyReset y
  | .pause => y

/-- The step of the machine.  The host's next move is made if it is enabled; while it is not, while the host pauses and
when it has no move left, the engine takes its step (43_host_interface.md R133, 70_reset_and_hazards.md R176). -/
def turn {lenw : Nat} (y : Engine lenw) : Result State :=
  match y.host with
  | [] => engineStep y
  | .pause :: rest =>
    if (fetch y).isSome then engineStep { y with host := rest } else .next ⟨lenw, { y with host := rest }⟩
  | m :: rest =>
    if moveEnabled y m then .next ⟨lenw, hostMove { y with host := rest } m⟩ else engineStep y

/-! ### A word placed where the next step finds it (log 11) -/

/-- The engine in phase ABSORB with `n` bytes of zero still to absorb. -/
def beforeBlock {lenw : Nat} (n : Nat) (y : Engine lenw) : Engine lenw :=
  { y with
    phase := .absorb
    handled := 0
    len := BitVec.ofNat lenw n
    buf := memOf 0 (List.replicate n 0)
    bufsize := BitVec.ofNat lenw n }

/-- The engine at which a micro-operation is the sequencer's choice. -/
def beforeMop {lenw : Nat} (y : Engine lenw) : Option Instr → Engine lenw
  | some .init => { y with phase := .start }
  | some .abs1 => beforeBlock 16 y
  | some .abs2 => beforeBlock 32 y
  | some (.abss r) => beforeBlock r.toNat y
  | some .fold => { y with phase := .absorb, handled := 0, len := 0 }
  | some (.hash _) => y
  | none => y

/-- The engine whose own next step fetches the word: a request word is offered to an idle engine; for a micro-operation
word, which stands in no memory, the registers the sequencer chooses from are set so that it chooses that word. -/
def place {lenw : Nat} (y : Engine lenw) : Wire lenw → Engine lenw
  | .rq word => { y with phase := .idle, rq := some word, host := .pause :: y.host }
  | .mop word => { beforeMop y (decodeMop word) with host := .pause :: y.host }

end Sys2Proof.Machine
end

