-- ==== Sys2Proof/Machine/Step.lean ====
section
/-! DEFINITION. The step of the machine, and the placing of a word where the next step fetches it. -/

namespace Sys2Proof.Machine

/-- One step of one agent: the host's move or the engine's (00_scope.md R5). -/
def step (s : State) : Host.Outcome State Fault Refusal := turn s.eng

/-- `s` with the word stored where the next step fetches it (log 11, log 12). -/
def State.withFetchWord (s : State) (nbits w : Nat) : State := ⟨s.lenw, place s.eng (tableWire s.lenw nbits w)⟩

end Sys2Proof.Machine
end

