-- ==== Sys2Proof/Machine/Listing.lean ====
section
/-! DEFINITION. The textual syntax of 30_encoding.md R68, as a printer (log 22). -/

namespace Sys2Proof.Machine

/-- `n` hexadecimal digits of a number, the least significant last. -/
def hexDigits : Nat → Nat → List Char
  | 0, _ => []
  | n + 1, v => hexDigits n (v / 16) ++ [Nat.digitChar (v % 16)]

/-- An operation as a line of a listing: `HASH len` with a decimal count, `ABSS r` with a decimal r (R68). -/
def Instr.text : Instr → String
  | .hash len => "HASH " ++ len.repr
  | .init => "INIT"
  | .abs1 => "ABS1"
  | .abs2 => "ABS2"
  | .abss r => "ABSS " ++ r.toNat.repr
  | .fold => "FOLD"

/-- A response as it is written: `OK 0x<16 hex digits>`, `ERR InvalidLength`, `ERR IllegalCommand` (R68). -/
def Response.text : Response → String
  | .ok digest => "OK 0x" ++ String.ofList (hexDigits 16 digest.toNat)
  | .invalidLength => "ERR InvalidLength"
  | .illegalCommand => "ERR IllegalCommand"

end Sys2Proof.Machine
end

