-- ==== Sys2Proof/Machine/Hash.lean ====
section
/-! DEFINITION. The function computed by a call (41_iteration.md R110) and the micro-operation stream of a length (R109). -/

namespace Sys2Proof.Machine

/-- The block of `b[16i .. 16i+15]`, or of as many of these bytes as there are (R110). -/
def blockAt (b : List Byte) (i : Nat) : Block := pack ((b.drop (16 * i)).take 16)

/-- `H_i`: zero, and then one Compress for each full block, in order (R110). -/
def hState (c : Cipher) (b : List Byte) : Nat → Block
  | 0 => 0
  | i + 1 => compress c (blockAt b i) (hState c b i)

/-- `H_end` for the first `n` bytes: the short block, if there is one, is absorbed last (R110). -/
def hEnd (c : Cipher) (b : List Byte) (n : Nat) : Block :=
  if n % 16 = 0 then hState c b (n / 16)
  else compress c (pack ((b.drop (16 * (n / 16))).take (n % 16))) (hState c b (n / 16))

/-- `Hash(b, n) = Fold(H_end)` (R110). -/
def hashOf (c : Cipher) (b : List Byte) (n : Nat) : Digest := foldBlock (hEnd c b n)

/-- The micro-operation stream of a call of length `n` (R109, 30_encoding.md R69 (a)). -/
def stream (n : Nat) : List Instr :=
  [.init] ++ List.replicate (n / 32) .abs2 ++ (if 16 ≤ n % 32 then [.abs1] else [])
    ++ (if n % 16 ≠ 0 then [.abss (BitVec.ofNat 4 (n % 16))] else []) ++ [.fold]

end Sys2Proof.Machine
end

