-- ==== Sys2Proof/Machine/Instances.lean ====
section
/-! DEFINITION. Several engines in one system (43_host_interface.md R137; log 20). -/

namespace Sys2Proof.Machine

/-- The `k`-th engine of a system takes its step; an engine that is not there has none. -/
def stepAt (k : Nat) (system : List State) : Result (List State) :=
  match system[k]? with
  | none => .fault .noEnabledStep
  | some s =>
    match step s with
    | .next t => .next (system.set k t)
    | .fault f => .fault f
    | .refused r => .refused r

end Sys2Proof.Machine
end

