-- ==== Sys2Proof/Safety.lean ====
section
/-! DEFINITION. What a sound engine is: the terms the claims use. -/

namespace Sys2Proof.Machine

/-- The bytes that a sequence of reads returned, in the order they were returned. -/
def readBytes (reads : List ReadEvent) : List Byte := reads.flatMap ReadEvent.bytes

/-- The reads cover the offsets from `lo` to `hi - 1`, each exactly once, in increasing order, nothing else, and each read
starts at a multiple of 16 and returns 1 to 16 bytes (20_memory.md R46, R47; 41_iteration.md R107). -/
def tiles : Nat → List ReadEvent → Nat → Bool
  | lo, [], hi => decide (lo = hi)
  | lo, e :: es, hi =>
    decide (e.off = lo ∧ e.off % 16 = 0 ∧ 1 ≤ e.bytes.length ∧ e.bytes.length ≤ 16)
      && tiles (lo + e.bytes.length) es hi

/-- An ended call is sound: an `OK` response carries Hash of the bytes its reads returned, which are as many as were
hashed (20_memory.md R51); an error response comes with no read (60_exceptions.md R155); a call abandoned by reset read
a prefix; no other response is ever emitted (30_encoding.md R62). -/
def Run.Sound (c : Cipher) (r : Run) : Prop :=
  tiles 0 r.reads (readBytes r.reads).length = true ∧
  match r.response with
  | none => True
  | some word =>
    match decodeRs word with
    | some (.ok digest) => digest = hashOf c (readBytes r.reads) (readBytes r.reads).length
    | some .invalidLength => r.reads = []
    | some .illegalCommand => r.reads = []
    | none => False

/-- The call in progress is where PHASE says it is (10_state.md R22 to R26, Table 10-2): no read outside ABSORB and DONE,
LEN within BUFSIZE, HANDLED within LEN and a multiple of 16 until it reaches LEN, the reads covering exactly the HANDLED
bytes, H the state of Hash over them, and in DONE either the digest of all LEN bytes or an error with nothing read. -/
def Engine.CallOk {lenw : Nat} (y : Engine lenw) : Prop :=
  match y.phase with
  | .idle => y.reads = []
  | .start => y.reads = [] ∧ y.len.toNat ≤ y.bufsize.toNat ∧ y.cause = 0x00#8
  | .absorb =>
    y.len.toNat ≤ y.bufsize.toNat ∧ y.cause = 0x00#8 ∧
    y.handled.toNat ≤ y.len.toNat ∧ (y.handled.toNat % 16 = 0 ∨ y.handled = y.len) ∧
    tiles 0 y.reads y.handled.toNat = true ∧ y.h = hEnd y.cipher (readBytes y.reads) y.handled.toNat
  | .done =>
    (y.cause = 0x00#8 ∧ y.len.toNat ≤ y.bufsize.toNat ∧
      tiles 0 y.reads y.len.toNat = true ∧ y.digest = hashOf y.cipher (readBytes y.reads) y.len.toNat) ∨
    ((y.cause = 0x01#8 ∨ y.cause = 0x02#8) ∧ y.digest = 0 ∧ y.reads = [])

/-- The invariant of the machine: LENW is at least 6 (00_scope.md R4), the buffer is in canonical form and holds nothing at
or beyond BUFSIZE (20_memory.md R40), the call in progress is where PHASE says, every ended call is sound. -/
structure State.Inv (s : State) : Prop where
  lenw_ge : 6 ≤ s.lenw
  buf_wf : Memory.wf s.eng.buf = true
  buf_below : memBelow s.eng.bufsize.toNat s.eng.buf = true
  call : s.eng.CallOk
  runs_sound : ∀ r ∈ s.eng.runs, r.Sound s.eng.cipher

/-- Host duty H1 (Table 43-1): the port answers a read of every offset below BUFSIZE. -/
def Engine.PortAnswers {lenw : Nat} (y : Engine lenw) : Prop :=
  ∀ off, off < y.bufsize.toNat → (memByte y.buf off).isSome = true

/-- The host makes no move of its own in this step: it has none left, it pauses, or its next one is not enabled (log 6). -/
def Engine.HostWaits {lenw : Nat} (y : Engine lenw) : Prop :=
  y.host = [] ∨ (∃ rest, y.host = .pause :: rest) ∨ ∃ m rest, y.host = m :: rest ∧ moveEnabled y m = false

/-- The engine with a pause that stands first among the host's moves used up (log 6). -/
def Engine.pauseUsed {lenw : Nat} (y : Engine lenw) : Engine lenw :=
  match y.host with
  | .pause :: rest => { y with host := rest }
  | _ => y

/-- The operations executed in the next `k` steps of a machine whose host makes no move. -/
def executed : Nat → State → List Instr
  | 0, _ => []
  | k + 1, s =>
    match fetch s.eng with
    | none => []
    | some wire =>
      match decode wire, step s with
      | some i, .next t => i :: executed k t
      | _, _ => []

/-- One operation after another, as long as each gives a next state. -/
def execAll : List Instr → State → Result State
  | [], s => .next s
  | i :: is, s =>
    match exec i s with
    | .next t => execAll is t
    | .fault f => .fault f
    | .refused r => .refused r

end Sys2Proof.Machine
end

