-- ==== Sys2Proof/Certificates/Slice0/Obligations.lean ====
section
/-! DEFINITION. The statements for the provers. -/

open Sys2Proof Sys2Proof.Machine

/-! ### Words -/

/-- Every operation that has a word is read back from it, with every operand (30_encoding.md R61, R63, R65). -/
def Obligations.DecodeOfEncodeIsTheInstruction : Prop :=
  ∀ (w : Nat) (i : Instr), i.wf w = true → decode (encode w i) = some i

/-- A word that decodes is well formed and is the one word of its operation: no bit of a word is ignored
(30_encoding.md R61, R63, R66). -/
def Obligations.EncodeOfDecodeIsTheWord : Prop :=
  ∀ (w : Nat) (wire : Wire w) (i : Instr), decode wire = some i → i.wf w = true ∧ encode w i = wire

/-- The decoder follows the opcode table: a decoded word fits its operation's row, no word fits two rows, and a word that
fits a row decodes to an operation of that row, but for the reserved word 0x30 (30_encoding.md R65). -/
def Obligations.DecoderFollowsOpcodeTable : Prop :=
  (∀ (w : Nat) (wire : Wire w) (i : Instr), decode wire = some i → i.row.fits wire = true) ∧
  (∀ (w : Nat) (wire : Wire w) (i j : Instr),
    i.row.fits wire = true → j.row.fits wire = true → i.row = j.row) ∧
  (∀ (w : Nat) (wire : Wire w) (i : Instr), i.row.fits wire = true → wire ≠ .mop 0x30#8 →
    ∃ j, decode wire = some j ∧ j.row = i.row)

/-- The reserved words of both formats are exactly those of 30_encoding.md R66 (a), (b). -/
def Obligations.ReservedWordsDoNotDecode : Prop :=
  (∀ (w : Nat) (word : BitVec (w + 8)), decode (Wire.rq word) = none ↔ rqCmd word ≠ 0x01#8) ∧
  (∀ word : BitVec 8, decodeMop word = none ↔
    ¬ (word = 0x00#8 ∨ word = 0x10#8 ∨ word = 0x20#8 ∨ (0x31#8 ≤ word ∧ word ≤ 0x3F#8) ∨ word = 0x40#8))

/-- Words written out from the spec decode to what they stand for (95_test_vectors.md sections 3.4 and 5). -/
def Obligations.SpecWordsDecode : Prop :=
  decode (Wire.rq (lenw := 64) 0x000000000000000501#72) = some (.hash 5) ∧
  decode (Wire.rq (lenw := 64) 0x000000000000004a01#72) = some (.hash 74) ∧
  decode (Wire.rq (lenw := 64) 0x000000000000000502#72) = none ∧
  decode (Wire.mop (lenw := 64) 0x00#8) = some .init ∧
  decode (Wire.mop (lenw := 64) 0x10#8) = some .abs1 ∧
  decode (Wire.mop (lenw := 64) 0x20#8) = some .abs2 ∧
  decode (Wire.mop (lenw := 64) 0x3A#8) = some (.abss 10#4) ∧
  decode (Wire.mop (lenw := 64) 0x40#8) = some .fold ∧
  decodeRs 0x52b76b43f905614600#72 = some (.ok 0x52b76b43f9056146#64)

/-- Response words: `RS = DIGEST ++ CAUSE` has its fields at [71:8] and [7:0], every response is read back from its word,
and a word that is read is the one word of its response (30_encoding.md R62). -/
def Obligations.ResponseWordsRoundTrip : Prop :=
  (∀ (d : Digest) (c : BitVec 8), rsDigest (encodeRs d c) = d ∧ rsCode (encodeRs d c) = c) ∧
  (∀ r : Response, decodeRs r.encode = some r) ∧
  (∀ (word : BitVec 72) (r : Response), decodeRs word = some r → r.encode = word)

/-! ### Pack, Compress, Fold -/

/-- `Pack`: byte j is `b[j]` for j < r and zero for r ≤ j ≤ 15, and appending zero bytes changes nothing
(20_memory.md R44). -/
def Obligations.PackPlacesBytesInOffsetOrder : Prop :=
  (∀ bs : List Byte, 1 ≤ bs.length → bs.length ≤ 16 →
    ∀ j, j < 16 → byteOf (pack bs) j = if j < bs.length then bs.getD j 0 else 0) ∧
  (∀ (bs : List Byte) (s : Nat), 1 ≤ bs.length → bs.length ≤ s → s ≤ 16 →
    pack (bs ++ List.replicate (s - bs.length) 0) = pack bs) ∧
  pack [0x68, 0x65, 0x6c, 0x6c, 0x6f] = 0x00000000000000000000006f6c6c6568

/-- SBOX is the affine image of the field inverse, a bijection with no fixed point, with the five check values; SubBytes
applies it to each byte (40_compress.md R83). -/
def Obligations.SubBytesIsTheArithmeticSbox : Prop :=
  (∀ x j, j < 16 → byteOf (subBytes x) j = sbox (byteOf x j)) ∧
  (∀ a : Byte, ∃ b : Byte, (a = 0 → b = 0) ∧ (a ≠ 0 → gfMul a b = 1) ∧ sbox a = sboxAffine b) ∧
  sbox 0x00 = 0x63 ∧ sbox 0x01 = 0x7c ∧ sbox 0x53 = 0xed ∧ sbox 0x63 = 0xfb ∧ sbox 0xff = 0x16 ∧
  Function.Bijective sbox ∧ (∀ a, sbox a ≠ a)

/-- ShiftRows: row r moves left by r columns, which is the index list SR on bytes; it permutes the positions, commutes with
SubBytes, and takes bytes 00 .. 0f to the spec's example (40_compress.md R84). -/
def Obligations.ShiftRowsRotatesRows : Prop :=
  (∀ x r c, r < 4 → c < 4 → cell (shiftRows x) r c = cell x r ((c + r) % 4)) ∧
  (∀ x j, j < 16 → byteOf (shiftRows x) j = byteOf x ([0, 5, 10, 15, 4, 9, 14, 3, 8, 13, 2, 7, 12, 1, 6, 11].getD j 0)) ∧
  (∀ x, shiftRows (subBytes x) = subBytes (shiftRows x)) ∧
  Function.Bijective shiftRows ∧
  shiftRows (pack ((List.range 16).map (BitVec.ofNat 8)))
    = pack [0x00, 0x05, 0x0a, 0x0f, 0x04, 0x09, 0x0e, 0x03, 0x08, 0x0d, 0x02, 0x07, 0x0c, 0x01, 0x06, 0x0b]

/-- MixColumns: the four formulas on each column, with 2·a and 3·a in GF(2^8) modulo 0x11B, the two example columns, and a
column of four equal bytes unchanged (40_compress.md R85). -/
def Obligations.MixColumnsOnEachColumn : Prop :=
  (∀ x c, c < 4 →
    cell (mixColumns x) 0 c = gfMul 2 (cell x 0 c) ^^^ gfMul 3 (cell x 1 c) ^^^ cell x 2 c ^^^ cell x 3 c ∧
    cell (mixColumns x) 1 c = cell x 0 c ^^^ gfMul 2 (cell x 1 c) ^^^ gfMul 3 (cell x 2 c) ^^^ cell x 3 c ∧
    cell (mixColumns x) 2 c = cell x 0 c ^^^ cell x 1 c ^^^ gfMul 2 (cell x 2 c) ^^^ gfMul 3 (cell x 3 c) ∧
    cell (mixColumns x) 3 c = gfMul 3 (cell x 0 c) ^^^ cell x 1 c ^^^ cell x 2 c ^^^ gfMul 2 (cell x 3 c)) ∧
  (∀ a : Byte, gfMul 2 a = (a <<< 1) ^^^ (if a.getLsbD 7 then 0x1B#8 else 0#8) ∧ gfMul 3 a = gfMul 2 a ^^^ a) ∧
  mixColumns (pack [0xdb, 0x13, 0x53, 0x45, 0xf2, 0x0a, 0x22, 0x5c]) = pack [0x8e, 0x4d, 0xa1, 0xbc, 0x9f, 0xdc, 0x58, 0x9d] ∧
  (∀ v r, r < 4 → mixRow v v v v r = v)

/-- The default rounds are their layers with the key added last, SubBytes and ShiftRows in either order, with the spec's
check values (40_compress.md R86, R87, R88). -/
def Obligations.AesRoundsAreTheirLayers : Prop :=
  (∀ x k, addRoundKey x k = x ^^^ k) ∧
  (∀ x k, round1 .aes x k = mixColumns (shiftRows (subBytes x)) ^^^ k ∧
    round1 .aes x k = mixColumns (subBytes (shiftRows x)) ^^^ k) ∧
  (∀ x k, round2 .aes x k = shiftRows (subBytes x) ^^^ k) ∧
  round1 .aes 0x7b5b54657374566563746f725d53475d 0x48692853686179295b477565726f6e5d = 0xa8311c2f9fdba3c58b104b58ded7e595 ∧
  round1 .aes 0 0 = 0x63636363636363636363636363636363 ∧
  round2 .aes 0x7b5b54657374566563746f725d53475d 0x48692853686179295b477565726f6e5d = 0xc7fb881e938c5964177ec42553fdc611 ∧
  round2 .aes 0x63636363636363636363636363636363 0 = 0xfbfbfbfbfbfbfbfbfbfbfbfbfbfbfbfb

/-- Compress is two rounds under one key for every CIPHER, with no feed-forward, written out for the default CIPHER with the
spec's check values (40_compress.md R80, R89; 95_test_vectors.md V-C1, V-C4 to V-C8). -/
def Obligations.CompressIsTwoRoundsUnderOneKey : Prop :=
  (∀ c m k, compress c m k = round2 c (round1 c (m ^^^ k) k) k) ∧
  (∀ m k, compress .aes m k =
    shiftRows (subBytes (mixColumns (shiftRows (subBytes (m ^^^ k))) ^^^ k)) ^^^ k) ∧
  compress .aes 0 0 = 0xfbfbfbfbfbfbfbfbfbfbfbfbfbfbfbfb ∧
  compress .aes 1 0 = 0xfbfb10fbfb10fbfb2cfbfbfbfbfbfb4c ∧
  compress .aes 0 1 = 0xfbfb10fbfb10fbfb2cfbfbfbfbfbfb4b ∧
  compress .aes 0x0f0e0d0c0b0a09080706050403020100 0 = 0xefc302ccd14adee76efd35714a4c3c02 ∧
  compress .aes 0x0f0e0d0c0b0a09080706050403020100 0x1f1e1d1c1b1a19181716151413121110 = 0x2198a4eada7b17ad225e730910628f47 ∧
  compress .aes 0x7b5b54657374566563746f725d53475d 0x48692853686179295b477565726f6e5d = 0xc6d0f22b414d247593e9a4ed31b1f0ed

/-- For a fixed K, `M -> Compress(M, K)` is a bijection under the default CIPHER (40_compress.md R91). -/
def Obligations.AesCompressIsBijectiveInM : Prop :=
  ∀ k : Block, Function.Bijective fun m => compress .aes m k

/-- If all bytes of M xor K are equal and all bytes of K are equal, so are all bytes of Compress(M, K), whose Fold is then
zero (40_compress.md R91). -/
def Obligations.AesCompressKeepsUniformBytes : Prop :=
  ∀ (v k : Byte) (m : Block), m ^^^ pack (List.replicate 16 k) = pack (List.replicate 16 v) →
    ∃ u : Byte, compress .aes m (pack (List.replicate 16 k)) = pack (List.replicate 16 u) ∧
      foldBlock (compress .aes m (pack (List.replicate 16 k))) = 0

/-- Fold: the low half xor the high half; bit i is `H[i] xor H[64+i]`, byte j is byte j xor byte j+8 (42_finalize.md
R121). -/
def Obligations.FoldXorsTheHalves : Prop :=
  ∀ h : Block, foldBlock h = h.extractLsb' 0 64 ^^^ h.extractLsb' 64 64 ∧
    (∀ i, i < 64 → (foldBlock h).getLsbD i = (h.getLsbD i ^^ h.getLsbD (64 + i))) ∧
    (∀ j, j < 8 → (foldBlock h).extractLsb' (8 * j) 8 = byteOf h j ^^^ byteOf h (j + 8))

/-! ### The buffer -/

/-- A byte written by the host reads back, and every other offset reads as before (20_memory.md section 1; log 5).
That a write is visible to every read after it is the model's choice (log 25). -/
def Obligations.BufferWriteThenRead : Prop :=
  ∀ (m : Memory) (off : Nat) (b : Byte), Memory.wf m = true →
    ∀ a, memByte (memWrite m off b) a = if a = off then some b else memByte m a

/-- `MemRead(off, n)` answers exactly when the range is inside the buffer and the port holds the bytes, and then with
`b[i] = Buf(off + i)`; outside the buffer it never answers (20_memory.md R41). -/
def Obligations.MemReadReturnsTheBufferBytes : Prop :=
  ∀ (w : Nat) (y : Engine w) (off n : Nat) (bs : List Byte),
    memRead y off n = .ok bs ↔
      (1 ≤ n ∧ n ≤ 16 ∧ off + n ≤ y.bufsize.toNat ∧ bs.length = n ∧ ∀ i, i < n → memByte y.buf (off + i) = bs[i]?)

/-! ### The operations -/

/-- HASH with a length within BUFSIZE latches LEN, clears CAUSE and enters START; nothing else changes
(43_host_interface.md R131).  Completion of HASH. -/
def Obligations.HashCommandStartsACall : Prop :=
  ∀ (w : Nat) (y : Engine w) (len : Nat), y.phase = .idle → len ≤ y.bufsize.toNat →
    exec (.hash len) ⟨w, y⟩ = .next ⟨w, { y with len := BitVec.ofNat w len, cause := 0x00#8, phase := .start }⟩ ∧
    (BitVec.ofNat w len).toNat = len

/-- HASH with a length beyond BUFSIZE raises InvalidLength: CAUSE 0x01, DIGEST 0, PHASE DONE, and nothing else: LEN, H,
HANDLED and the read record stay (60_exceptions.md R151, R155).  That a count too wide for LENW is one of these is the
model's choice (log 17). -/
def Obligations.OverlongHashRaisesInvalidLength : Prop :=
  ∀ (w : Nat) (y : Engine w) (len : Nat), y.phase = .idle → y.bufsize.toNat < len →
    exec (.hash len) ⟨w, y⟩ = .next ⟨w, { y with cause := 0x01#8, digest := 0, phase := .done }⟩

/-- INIT, word 0x00: H and HANDLED are set to zero without being read and PHASE becomes ABSORB; nothing else changes
(41_iteration.md R100). -/
def Obligations.InitClearsStateAndCounter : Prop :=
  ∀ (w : Nat) (y : Engine w), y.phase = .start →
    exec .init ⟨w, y⟩ = .next ⟨w, { y with h := 0, handled := 0, phase := .absorb }⟩ ∧
    decode (Wire.mop (lenw := w) 0x00#8) = some .init

/-- ABS1, word 0x10, absorbs the 16 bytes at HANDLED: one read, H replaced by Compress of their Pack under the old H,
HANDLED 16 further; nothing else changes.  With the rule's example (41_iteration.md R101). -/
def Obligations.AbsOneAbsorbsOneBlock : Prop :=
  decodeMop 0x10#8 = some .abs1 ∧
  compress .aes 0x0f0e0d0c0b0a09080706050403020100 0 = 0xefc302ccd14adee76efd35714a4c3c02 ∧
  ∀ (w : Nat) (y : Engine w), y.phase = .absorb → y.handled.toNat + 16 ≤ y.len.toNat →
    y.len.toNat ≤ y.bufsize.toNat → y.PortAnswers →
    ∃ b : List Byte, b.length = 16 ∧ (∀ i, i < 16 → memByte y.buf (y.handled.toNat + i) = b[i]?) ∧
      ∃ k : BitVec w, k.toNat = y.handled.toNat + 16 ∧
      exec .abs1 ⟨w, y⟩ = .next ⟨w, { y with
        h := compress y.cipher (pack b) y.h, handled := k, reads := y.reads ++ [⟨y.handled.toNat, b⟩] }⟩

/-- ABS2, word 0x20, absorbs the 32 bytes at HANDLED as two blocks in order, the first result being the key of the second;
HANDLED 32 further; nothing else changes.  With the rule's example (41_iteration.md R102). -/
def Obligations.AbsTwoAbsorbsTwoBlocks : Prop :=
  decodeMop 0x20#8 = some .abs2 ∧
  compress .aes 0x1f1e1d1c1b1a19181716151413121110 (compress .aes 0x0f0e0d0c0b0a09080706050403020100 0)
    = 0x1d109be912e583143b4fe2966e192c92 ∧
  ∀ (w : Nat) (y : Engine w), y.phase = .absorb → y.handled.toNat + 32 ≤ y.len.toNat →
    y.len.toNat ≤ y.bufsize.toNat → y.PortAnswers →
    ∃ b d : List Byte, b.length = 16 ∧ d.length = 16 ∧
      (∀ i, i < 16 → memByte y.buf (y.handled.toNat + i) = b[i]?) ∧
      (∀ i, i < 16 → memByte y.buf (y.handled.toNat + 16 + i) = d[i]?) ∧
      ∃ k : BitVec w, k.toNat = y.handled.toNat + 32 ∧
      exec .abs2 ⟨w, y⟩ = .next ⟨w, { y with
        h := compress y.cipher (pack d) (compress y.cipher (pack b) y.h), handled := k,
        reads := y.reads ++ [⟨y.handled.toNat, b⟩, ⟨y.handled.toNat + 16, d⟩] }⟩

/-- ABSS r, word 0x30 + r, absorbs exactly the r = LEN - HANDLED bytes left, zero-padded by Pack; HANDLED becomes LEN;
nothing else changes.  With the rule's example (41_iteration.md R103). -/
def Obligations.AbsShortAbsorbsTheRest : Prop :=
  (∀ r : BitVec 4, r ≠ 0#4 → decodeMop (0x30#8 + r.setWidth 8) = some (.abss r)) ∧ decodeMop 0x30#8 = none ∧
  compress .aes (pack [0x68, 0x65, 0x6c, 0x6c, 0x6f]) 0 = 0x53546e821a6e755301e305c1e36b1415 ∧
  ∀ (w : Nat) (y : Engine w) (r : BitVec 4), y.phase = .absorb → r ≠ 0#4 → y.handled.toNat + r.toNat = y.len.toNat →
    y.len.toNat ≤ y.bufsize.toNat → y.PortAnswers →
    ∃ b : List Byte, b.length = r.toNat ∧ (∀ i, i < r.toNat → memByte y.buf (y.handled.toNat + i) = b[i]?) ∧
      exec (.abss r) ⟨w, y⟩ = .next ⟨w, { y with
        h := compress y.cipher (pack b) y.h, handled := y.len, reads := y.reads ++ [⟨y.handled.toNat, b⟩] }⟩

/-- FOLD, word 0x40, writes DIGEST from H and enters DONE; nothing else changes, also when LEN is 0.  With the rule's
example and its corner: equal halves give 0 (42_finalize.md R120).  That H keeps its bits after FOLD, where R122 lets a model
drop it, is the model's choice (log 4). -/
def Obligations.FoldExtractsTheDigest : Prop :=
  decodeMop 0x40#8 = some .fold ∧ foldBlock 0x53546e821a6e755301e305c1e36b1415 = 0x52b76b43f9056146 ∧
  (∀ half : BitVec 64, foldBlock (half ++ half) = 0) ∧
  ∀ (w : Nat) (y : Engine w), y.phase = .absorb → y.handled = y.len →
    exec .fold ⟨w, y⟩ = .next ⟨w, { y with digest := y.h.extractLsb' 0 64 ^^^ y.h.extractLsb' 64 64, phase := .done }⟩

/-- ABS2 is ABS1 twice: the same H, HANDLED and reads, and the same stop where a read is not answered
(41_iteration.md R105). -/
def Obligations.AbsTwoIsAbsOneTwice : Prop :=
  ∀ (w : Nat) (y : Engine w), y.phase = .absorb → 32 ≤ (remaining y.len y.handled).toNat →
    exec .abs2 ⟨w, y⟩ = andThen (exec .abs1 ⟨w, y⟩) (exec .abs1)

/-- What an operation may write, by Table 10-1: only INIT, ABS1, ABS2 and ABSS write H and HANDLED, only HASH writes LEN and
CAUSE, only HASH and FOLD write DIGEST and only HASH, INIT and FOLD write PHASE; no operation changes a byte of the buffer,
BUFSIZE, the channels, the ended calls, LENW or CIPHER, and none forgets a read (10_state.md R20; 20_memory.md R42).  That H
keeps its bits after FOLD is the model's choice (log 4). -/
def Obligations.OperationsWriteOnlyTheirRegisters : Prop :=
  ∀ (w : Nat) (y : Engine w) (i : Instr) (t : State), exec i ⟨w, y⟩ = .next t → ∃ z : Engine w, t = ⟨w, z⟩ ∧
    (∀ off, memByte z.buf off = memByte y.buf off) ∧ z.bufsize = y.bufsize ∧ z.rq = y.rq ∧ z.host = y.host ∧
    z.runs = y.runs ∧ z.draws = y.draws ∧ z.cipher = y.cipher ∧ y.reads <+: z.reads ∧
    match i with
    | .hash _ => z.h = y.h ∧ z.handled = y.handled ∧ z.reads = y.reads
    | .init => z.len = y.len ∧ z.cause = y.cause ∧ z.digest = y.digest ∧ z.reads = y.reads
    | .abs1 => z.len = y.len ∧ z.cause = y.cause ∧ z.digest = y.digest ∧ z.phase = y.phase
    | .abs2 => z.len = y.len ∧ z.cause = y.cause ∧ z.digest = y.digest ∧ z.phase = y.phase
    | .abss _ => z.len = y.len ∧ z.cause = y.cause ∧ z.digest = y.digest ∧ z.phase = y.phase
    | .fold => z.h = y.h ∧ z.handled = y.handled ∧ z.len = y.len ∧ z.cause = y.cause ∧ z.reads = y.reads

/-- An operation gives a next state only where its precondition on PHASE and on LEN - HANDLED holds
(41_iteration.md R100 to R103, 42_finalize.md R120, 43_host_interface.md R131).  That it is a stop elsewhere is the
model's choice (log 9, log 10). -/
def Obligations.OperationsNeedTheirPreconditions : Prop :=
  ∀ (w : Nat) (y : Engine w) (i : Instr) (t : State), exec i ⟨w, y⟩ = .next t →
    match i with
    | .hash _ => y.phase = .idle
    | .init => y.phase = .start
    | .abs1 => y.phase = .absorb ∧ 16 ≤ (y.len - y.handled).toNat
    | .abs2 => y.phase = .absorb ∧ 32 ≤ (y.len - y.handled).toNat
    | .abss r => y.phase = .absorb ∧ r ≠ 0#4 ∧ (y.len - y.handled).toNat = r.toNat
    | .fold => y.phase = .absorb ∧ y.handled = y.len

/-! ### What executes next -/

/-- The sequencer: INIT in START; in ABSORB the operation by `rem = LEN - HANDLED`, from LEN and HANDLED alone
(41_iteration.md R104). -/
def Obligations.SequencerChoosesByRemainder : Prop :=
  ∀ (w : Nat) (y : Engine w),
    (y.phase = .start → (fetch y).bind decode = some .init) ∧
    (y.phase = .absorb → y.handled.toNat ≤ y.len.toNat →
      (32 ≤ y.len.toNat - y.handled.toNat → (fetch y).bind decode = some .abs2) ∧
      (16 ≤ y.len.toNat - y.handled.toNat → y.len.toNat - y.handled.toNat ≤ 31 → (fetch y).bind decode = some .abs1) ∧
      (∀ r, y.len.toNat - y.handled.toNat = r → 1 ≤ r → r ≤ 15 →
        (fetch y).bind decode = some (.abss (BitVec.ofNat 4 r)) ∧ (BitVec.ofNat 4 r).toNat = r) ∧
      (y.len.toNat - y.handled.toNat = 0 → (fetch y).bind decode = some .fold)) ∧
    (∀ z : Engine w, y.phase = .absorb → z.phase = .absorb → z.len = y.len → z.handled = y.handled → fetch z = fetch y)

/-- The sequencer never produces a reserved micro-operation word, whatever LEN and HANDLED hold (30_encoding.md R66). -/
def Obligations.SequencerNeverProducesReservedWord : Prop :=
  ∀ (w : Nat) (len handled : BitVec w), ∃ i, decodeMop (selectMop len handled) = some i

/-- A step of the engine is `exec` of the decoded word, which is well formed, after a request word has left its channel.
When the engine takes its step is the model's choice (log 6): when the host has no move left, when it pauses (the pause is
then used up), and when its next move is not enabled. -/
def Obligations.StepRunsTheDecodedInstruction : Prop :=
  ∀ (w : Nat) (y : Engine w) (wire : Wire w) (i : Instr), fetch y = some wire → decode wire = some i →
    i.wf w = true ∧
    (y.host = [] → step ⟨w, y⟩ = exec i ⟨w, taken wire y⟩) ∧
    (∀ rest, y.host = .pause :: rest → step ⟨w, y⟩ = exec i ⟨w, taken wire { y with host := rest }⟩) ∧
    (∀ m rest, y.host = m :: rest → moveEnabled y m = false → step ⟨w, y⟩ = exec i ⟨w, taken wire y⟩)

/-- Acceptance of a request word is one step with the three outcomes of 43_host_interface.md R131: IllegalCommand first,
whatever `len` holds, then InvalidLength, else the call starts (60_exceptions.md R151, R152, R154, R155); nothing else
changes.  That it happens when the host has no move left, pauses (the pause is then used up) or waits for a move that is
not enabled is the model's choice (log 6). -/
def Obligations.AcceptanceOfARequestWord : Prop :=
  ∀ (w : Nat) (y : Engine w) (word : BitVec (w + 8)), y.phase = .idle → y.rq = some word → y.HostWaits →
    step ⟨w, y⟩ =
      if rqCmd word ≠ 0x01#8 then
        .next ⟨w, { y.pauseUsed with rq := none, cause := 0x02#8, digest := 0, phase := .done }⟩
      else if y.bufsize < rqLen word then
        .next ⟨w, { y.pauseUsed with rq := none, cause := 0x01#8, digest := 0, phase := .done }⟩
      else .next ⟨w, { y.pauseUsed with rq := none, len := rqLen word, cause := 0x00#8, phase := .start }⟩

/-- A request word offered while a call is in progress is not taken and not lost, whoever moves; it is there when PHASE is
IDLE again (43_host_interface.md R133).  That it stays offered also through a reset is not R133's but the model's choice
(log 18). -/
def Obligations.RequestWaitsWhileBusy : Prop :=
  ∀ (s t : State) (word : BitVec (s.lenw + 8)), s.eng.phase ≠ .idle → s.eng.rq = some word → step s = .next t →
    ∃ z : Engine s.lenw, t = ⟨s.lenw, z⟩ ∧ z.rq = some word

/-- The host takes the response: one word `DIGEST ++ CAUSE` goes out with the reads of the call, PHASE returns to IDLE, and
nothing else of buffer and channels changes (43_host_interface.md R132, R136; 60_exceptions.md R156).  What the registers
hold afterwards is free (log 3) and not stated. -/
def Obligations.TakingTheResponseEndsTheCall : Prop :=
  ∀ (w : Nat) (y : Engine w) (rest : List (HostMove w)), y.phase = .done → y.host = .take :: rest →
    ∃ z : Engine w, step ⟨w, y⟩ = .next ⟨w, z⟩ ∧ z.phase = .idle ∧
      z.runs = y.runs ++ [⟨some (y.digest ++ y.cause), y.reads⟩] ∧ z.reads = [] ∧
      z.buf = y.buf ∧ z.bufsize = y.bufsize ∧ z.rq = y.rq ∧ z.host = rest ∧ z.cipher = y.cipher

/-- In DONE the engine itself has no step: the response stays offered, unchanged, through every step but the taking of it
and reset (43_host_interface.md R132). -/
def Obligations.ResponseStaysOffered : Prop :=
  ∀ (w : Nat) (y : Engine w) (t : State), y.phase = .done → step ⟨w, y⟩ = .next t →
    (∀ rest, y.host ≠ .take :: rest) → (∀ rest, y.host ≠ .reset :: rest) →
    ∃ z : Engine w, t = ⟨w, z⟩ ∧ z.phase = .done ∧ z.digest = y.digest ∧ z.cause = y.cause ∧ z.reads = y.reads ∧
      z.runs = y.runs

/-- A host that offers a word, presents a buffer or writes a byte of it touches no register, whatever PHASE is: the move
changes only its own channel or buffer (10_state.md R20, R30, R31; 20_memory.md R40).  When a move is enabled is the
model's choice (log 7), and so is that a write is visible at once (log 25). -/
def Obligations.HostMovesTouchNoRegister : Prop :=
  ∀ (w : Nat) (y : Engine w) (m : HostMove w) (rest : List (HostMove w)), y.host = m :: rest →
    m ≠ .take → m ≠ .reset → m ≠ .pause → moveEnabled y m = true → Memory.wf y.buf = true →
    ∃ z : Engine w, step ⟨w, y⟩ = .next ⟨w, z⟩ ∧ z.host = rest ∧
      z.h = y.h ∧ z.handled = y.handled ∧ z.len = y.len ∧ z.digest = y.digest ∧ z.phase = y.phase ∧ z.cause = y.cause ∧
      z.cipher = y.cipher ∧ z.reads = y.reads ∧ z.runs = y.runs ∧ z.draws = y.draws ∧
      (∀ bytes size, m = .present bytes size → z.rq = y.rq ∧ z.bufsize = size ∧
        ∀ a, memByte z.buf a = if a < size.toNat then bytes[a]? else none) ∧
      (∀ word, m = .offer word → z.rq = some word ∧ z.bufsize = y.bufsize ∧ z.buf = y.buf) ∧
      (∀ off b, m = .write off b → z.rq = y.rq ∧ z.bufsize = y.bufsize ∧
        ∀ a, memByte z.buf a = if a = off ∧ off < y.bufsize.toNat then some b else memByte y.buf a)

/-- Reset, in any phase: PHASE becomes IDLE, no call, no response; a call in progress is abandoned with no response word
(70_reset_and_hazards.md R170, R171).  The registers' values are free (log 3); that an offered word stays offered is the
model's choice (log 18). -/
def Obligations.ResetAbandonsTheCall : Prop :=
  ∀ (w : Nat) (y : Engine w) (rest : List (HostMove w)), y.host = .reset :: rest →
    ∃ z : Engine w, step ⟨w, y⟩ = .next ⟨w, z⟩ ∧ z.phase = .idle ∧ z.reads = [] ∧
      z.runs = (if y.phase = .idle then y.runs else y.runs ++ [⟨none, y.reads⟩]) ∧
      z.buf = y.buf ∧ z.bufsize = y.bufsize ∧ z.rq = y.rq ∧ z.host = rest ∧ z.cipher = y.cipher

/-- PHASE moves only along the transitions of 10_state.md R25, each by its own cause; only reset (R171) also leaves START
and ABSORB for IDLE. -/
def Obligations.PhaseMovesAlongItsTransitions : Prop :=
  ∀ (w : Nat) (y : Engine w) (t : State), step ⟨w, y⟩ = .next t →
    t.eng.phase = y.phase ∨
    (∃ rest, y.host = .reset :: rest ∧ t.eng.phase = .idle) ∨
    (∃ rest, y.host = .take :: rest ∧ y.phase = .done ∧ t.eng.phase = .idle) ∨
    ∃ wire, fetch y = some wire ∧
      ((y.phase = .idle ∧ t.eng.phase = .start ∧ (∃ len, decode wire = some (.hash len)) ∧ t.eng.cause = 0x00#8) ∨
       (y.phase = .idle ∧ t.eng.phase = .done ∧ (t.eng.cause = 0x01#8 ∨ t.eng.cause = 0x02#8)) ∨
       (y.phase = .start ∧ t.eng.phase = .absorb ∧ decode wire = some .init) ∨
       (y.phase = .absorb ∧ t.eng.phase = .done ∧ decode wire = some .fold))

/-- LEN is constant from acceptance until the response is taken (10_state.md R23). -/
def Obligations.LenIsConstantDuringACall : Prop :=
  ∀ (w : Nat) (y : Engine w) (t : State), step ⟨w, y⟩ = .next t → y.phase ≠ .idle → t.eng.phase ≠ .idle →
    ∃ z : Engine w, t = ⟨w, z⟩ ∧ z.len = y.len

/-- LENW and CIPHER are fixed for an engine: no step changes them (00_scope.md R4). -/
def Obligations.ConfigurationIsFixed : Prop :=
  ∀ s t : State, step s = .next t → t.lenw = s.lenw ∧ t.eng.cipher = s.eng.cipher

/-! ### Invariants -/

/-- The invariant holds right after reset (10_state.md R34). -/
def Obligations.InvariantHoldsAtReset : Prop :=
  State.reset.Inv ∧ State.reset.eng.phase = .idle

/-- Every step, the host's or the engine's, keeps the invariant: the buffer's form, where the call stands, H as the state of
Hash over the bytes read so far, the soundness of every ended call (10_state.md R22 to R26; 20_memory.md R45 to R47, R51). -/
def Obligations.StepKeepsTheInvariant : Prop :=
  ∀ s t : State, s.Inv → step s = .next t → t.Inv

/-- Every read is inside the first LEN bytes, which are inside the buffer, and starts at a multiple of 16 without crossing
the next one (20_memory.md R45, R46). -/
def Obligations.EveryReadIsBelowLenAndAligned : Prop :=
  ∀ s t : State, s.Inv → step s = .next t → ∀ e ∈ t.eng.reads, e ∉ s.eng.reads →
    e.off % 16 = 0 ∧ 1 ≤ e.bytes.length ∧ e.bytes.length ≤ 16 ∧
    e.off + e.bytes.length ≤ s.eng.len.toNat ∧ s.eng.len.toNat ≤ s.eng.bufsize.toNat

/-- In every state of the invariant the machine can stop only for want of an answer from outside: a port that is silent, or
nothing enabled.  No operation is issued outside its precondition, no read is issued outside the buffer, and no reserved
micro-operation word comes up (20_memory.md R41; 30_encoding.md R66; 41_iteration.md R104).  The names of the stops are the
model's (log 8, log 9, log 10). -/
def Obligations.OnlyTheOutsideCanStopTheMachine : Prop :=
  ∀ s : State, s.Inv → (∀ r, step s ≠ .refused r) ∧ ∀ f, step s = .fault f → f = .portSilent ∨ f = .noEnabledStep

/-- The machine stands still exactly when the host makes no move and the engine is IDLE with nothing offered or DONE with
its response not taken (10_state.md Table 10-2; 43_host_interface.md R132, R133; 60_exceptions.md R163).  That standing still
is shown as the fault noEnabledStep is the model's choice (log 8), and so is what counts as the host making no move: none is
left, or the next one is not enabled (log 6; a pause is a move here, since it is used up). -/
def Obligations.StandsStillExactlyWhenIdleOrHolding : Prop :=
  ∀ (w : Nat) (y : Engine w), step ⟨w, y⟩ = .fault .noEnabledStep ↔
    (y.host = [] ∨ ∃ m rest, y.host = m :: rest ∧ moveEnabled y m = false) ∧
    ((y.phase = .idle ∧ y.rq = none) ∨ y.phase = .done)

/-- A busy engine always has its step when the port answers, and comes nearer to DONE by it: a call cannot block
(70_reset_and_hazards.md R176). -/
def Obligations.BusyEngineMakesProgress : Prop :=
  ∀ (w : Nat) (y : Engine w), (⟨w, y⟩ : State).Inv → y.PortAnswers → y.host = [] →
    (y.phase = .start → ∃ z : Engine w, step ⟨w, y⟩ = .next ⟨w, z⟩ ∧ z.phase = .absorb ∧ z.PortAnswers) ∧
    (y.phase = .absorb → ∃ z : Engine w, step ⟨w, y⟩ = .next ⟨w, z⟩ ∧ z.PortAnswers ∧
      (z.phase = .done ∨ (z.phase = .absorb ∧ z.len.toNat - z.handled.toNat < y.len.toNat - y.handled.toNat)))

/-- A port that leaves any byte unanswered of the reads that the selected operation issues (32 bytes from HANDLED for ABS2, 16
for ABS1, r for ABSS r) leaves the engine stuck in ABSORB: no next state, and not a completed call (70_reset_and_hazards.md
R176).  When the engine is to take its step is the model's choice (log 6). -/
def Obligations.SilentPortLeavesTheEngineStuck : Prop :=
  ∀ (w : Nat) (y : Engine w) (i : Instr) (n off : Nat), (⟨w, y⟩ : State).Inv → y.HostWaits → y.phase = .absorb →
    (fetch y).bind decode = some i →
    ((i = .abs2 ∧ n = 32) ∨ (i = .abs1 ∧ n = 16) ∨ ∃ r, i = .abss r ∧ n = r.toNat) →
    y.handled.toNat ≤ off → off < y.handled.toNat + n → memByte y.buf off = none →
    step ⟨w, y⟩ = .fault .portSilent

/-! ### Whole calls -/

/-- Hash of nothing is zero for every CIPHER, and the call `HASH 0` ends after INIT and FOLD with no read, on any buffer,
however small (41_iteration.md R108). -/
def Obligations.EmptyInputHashesToZero : Prop :=
  (∀ (c : Cipher) (b : List Byte), hashOf c b 0 = 0) ∧ stream 0 = [.init, .fold] ∧
  ∀ (w : Nat) (y : Engine w), y.phase = .idle → y.rq = some (encodeHash 0) → y.host = [] →
    ∃ z : Engine w, Host.Core.run core 3 ⟨w, y⟩ = .next ⟨w, z⟩ ∧
      z.phase = .done ∧ z.cause = 0x00#8 ∧ z.digest = 0 ∧ z.reads = y.reads

/-- The stream of a call: an engine in START with LEN = n executes INIT, n / 32 times ABS2, ABS1 if 16 are left, ABSS of the
rest if there is one, and FOLD, in just that many steps (41_iteration.md R109, 30_encoding.md R69). -/
def Obligations.CallExecutesItsStream : Prop :=
  ∀ (w : Nat) (y : Engine w), y.phase = .start → y.host = [] → y.len.toNat ≤ y.bufsize.toNat → y.PortAnswers →
    executed (stream y.len.toNat).length ⟨w, y⟩ = stream y.len.toNat ∧
    (∃ z : Engine w, Host.Core.run core (stream y.len.toNat).length ⟨w, y⟩ = .next ⟨w, z⟩ ∧ z.phase = .done) ∧
    (stream y.len.toNat).length = 2 + y.len.toNat / 32 + (if 16 ≤ y.len.toNat % 32 then 1 else 0)
      + (if y.len.toNat % 16 ≠ 0 then 1 else 0)

/-- A call `HASH n` accepted without exception, whose reads return the bytes b, ends with the response `OK Hash(b, n)`, for
every LENW and every CIPHER; its reads cover the n bytes once each, in order (41_iteration.md R110;
43_host_interface.md R135, R136). -/
def Obligations.AcceptedCallAnswersHash : Prop :=
  ∀ (w : Nat) (y : Engine w) (len : BitVec w) (b : List Byte),
    y.phase = .idle → y.rq = some (encodeHash len) → y.host = [.take] → y.reads = [] →
    len.toNat ≤ y.bufsize.toNat → y.PortAnswers → memBytes y.buf 0 len.toNat = some b →
    ∃ (z : Engine w) (reads : List ReadEvent),
      Host.Core.run core (1 + (stream len.toNat).length + 1) ⟨w, y⟩ = .next ⟨w, z⟩ ∧
      z.phase = .idle ∧ z.runs = y.runs ++ [⟨some (Response.ok (hashOf y.cipher b len.toNat)).encode, reads⟩] ∧
      tiles 0 reads len.toNat = true ∧ readBytes reads = b

/-- Whatever the host does between the steps, also when it writes the buffer during a call, every response ever emitted
with code 0 carries Hash of the bytes that the call's reads returned (20_memory.md R51, 43_host_interface.md R136). -/
def Obligations.EveryDigestIsHashOfTheBytesRead : Prop :=
  ∀ (k : Nat) (s t : State), s.Inv → Host.Core.run core k s = .next t →
    ∀ r ∈ t.eng.runs, ∀ word, r.response = some word → rsCode word = 0x00#8 →
      rsDigest word = hashOf s.eng.cipher (readBytes r.reads) (readBytes r.reads).length ∧
      tiles 0 r.reads (readBytes r.reads).length = true

/-- A call's response depends on CIPHER, the length and the bytes below the length alone: not on the registers' earlier
values, on earlier calls, on BUFSIZE, or on bytes from the length on (10_state.md R33; 43_host_interface.md R135). -/
def Obligations.ResponseDependsOnlyOnTheInput : Prop :=
  ∀ (w : Nat) (y z : Engine w) (len : BitVec w),
    y.phase = .idle → z.phase = .idle → y.rq = some (encodeHash len) → z.rq = some (encodeHash len) →
    y.host = [.take] → z.host = [.take] → y.reads = [] → z.reads = [] → y.cipher = z.cipher →
    len.toNat ≤ y.bufsize.toNat → len.toNat ≤ z.bufsize.toNat → y.PortAnswers → z.PortAnswers →
    (∀ off, off < len.toNat → memByte y.buf off = memByte z.buf off) →
    ∃ (y' z' : Engine w) (run : Run),
      Host.Core.run core (1 + (stream len.toNat).length + 1) ⟨w, y⟩ = .next ⟨w, y'⟩ ∧
      Host.Core.run core (1 + (stream len.toNat).length + 1) ⟨w, z⟩ = .next ⟨w, z'⟩ ∧
      y'.runs = y.runs ++ [run] ∧ z'.runs = z.runs ++ [run]

/-- The known collision: appending t zero bytes that stay within the last, short block changes no digest, nor does filling
it up to 16, for every CIPHER (41_iteration.md R111 (c)). -/
def Obligations.ZeroExtendedShortBlockCollides : Prop :=
  ∀ (c : Cipher) (b : List Byte) (t : Nat), b.length % 16 ≠ 0 → b.length % 16 + t ≤ 16 →
    hashOf c (b ++ List.replicate t 0) (b.length + t) = hashOf c b b.length

/-- Bytes at offsets from n on never matter, and for every CIPHER Hash depends on the first n bytes through the sequence of
blocks alone: equal block sequences, equal digests (41_iteration.md R111 (a), (b)). -/
def Obligations.HashDependsOnTheBlocksAlone : Prop :=
  (∀ (c : Cipher) (b : List Byte) (n : Nat), hashOf c b n = hashOf c (b.take n) n) ∧
  (∀ (c : Cipher) (b b' : List Byte) (n n' : Nat), n ≤ b.length → n' ≤ b'.length → (n + 15) / 16 = (n' + 15) / 16 →
    (∀ i, i < (n + 15) / 16 → blockAt (b.take n) i = blockAt (b'.take n') i) → hashOf c b n = hashOf c b' n')

/-- A step of the engine reads nothing of the buffer from LEN on: two engines alike but for bytes there take the same step
(43_host_interface.md Table 43-1, 20_memory.md R45). -/
def Obligations.BytesFromLenOnAreNeverRead : Prop :=
  ∀ (w : Nat) (y z : Engine w) (m : Memory), (⟨w, y⟩ : State).Inv → y.host = [] → y.phase = .absorb →
    (∀ off, off < y.len.toNat → memByte m off = memByte y.buf off) → step ⟨w, y⟩ = .next ⟨w, z⟩ →
    step ⟨w, { y with buf := m }⟩ = .next ⟨w, { z with buf := m }⟩

/-! ### Several engines -/

/-- Engines share nothing: the step of the k-th is its own `step`, which it takes whenever it has one and whatever the others
hold; it leaves every other engine as it was; and steps of two different engines may be taken in either order
(43_host_interface.md R137).  That a system is a list of engines of which one steps at a time is the model's choice
(log 20). -/
def Obligations.EnginesAreIndependent : Prop :=
  (∀ (k : Nat) (l l' : List State), stepAt k l = .next l' →
    (∃ s t, l[k]? = some s ∧ step s = .next t ∧ l'[k]? = some t) ∧
    l'.length = l.length ∧ ∀ j, j ≠ k → l'[j]? = l[j]?) ∧
  (∀ (k : Nat) (l : List State) (s t : State), l[k]? = some s → step s = .next t → ∃ l', stepAt k l = .next l') ∧
  (∀ (i j : Nat) (l l₁ l₂ : List State), i ≠ j → stepAt i l = .next l₁ → stepAt j l₁ = .next l₂ →
    ∃ l₃, stepAt j l = .next l₃ ∧ stepAt i l₃ = .next l₂)
end

