-- ==== Sys2Proof/Laws/Words.lean ====
section
/-! SUPPORT. The fields of the word formats, the bytes of a block, and the bookkeeping arithmetic as arithmetic on numbers. -/

namespace Sys2Proof.Machine

/-! ### Fields of a joined word -/

theorem extract_low_of_append {n k : Nat} (a : BitVec n) (b : BitVec k) : (a ++ b).extractLsb' 0 k = b := by
  apply BitVec.eq_of_getLsbD_eq
  intro i hi
  simp [BitVec.getLsbD_append, hi]

theorem extract_high_of_append {n k : Nat} (a : BitVec n) (b : BitVec k) : (a ++ b).extractLsb' k n = a := by
  apply BitVec.eq_of_getLsbD_eq
  intro i hi
  simp [BitVec.getLsbD_append, hi]

theorem append_of_extract {n k : Nat} (x : BitVec (n + k)) : x.extractLsb' k n ++ x.extractLsb' 0 k = x := by
  apply BitVec.eq_of_getLsbD_eq
  intro i hi
  simp only [BitVec.getLsbD_append, BitVec.getLsbD_extractLsb']
  split
  · simp [*]
  · rw [show k + (i - k) = i by omega]
    simp [show i - k < n by omega]

@[simp] theorem rqCmd_encodeHash {w : Nat} (len : BitVec w) : rqCmd (encodeHash len) = 0x01#8 := extract_low_of_append _ _

@[simp] theorem rqLen_encodeHash {w : Nat} (len : BitVec w) : rqLen (encodeHash len) = len := extract_high_of_append _ _

theorem encodeHash_of_cmd {w : Nat} {word : BitVec (w + 8)} (h : rqCmd word = 0x01#8) : encodeHash (rqLen word) = word := by
  have := append_of_extract word
  rw [show word.extractLsb' 0 8 = 0x01#8 from h] at this
  exact this

theorem decodeRq_encodeHash {w : Nat} (len : BitVec w) : decodeRq (encodeHash len) = some (.hash len.toNat) := by
  simp [decodeRq]

@[simp] theorem decode_mop {w : Nat} (word : BitVec 8) : decode (Wire.mop (lenw := w) word) = decodeMop word := rfl

@[simp] theorem decode_rq {w : Nat} (word : BitVec (w + 8)) : decode (Wire.rq word) = decodeRq word := rfl

theorem decodeMop_abss (r : BitVec 4) (h : r ≠ 0#4) : decodeMop (0x3#4 ++ r) = some (.abss r) := by
  have h1 : mopOpc (0x3#4 ++ r) = 0x3#4 := extract_high_of_append _ _
  have h2 : mopN (0x3#4 ++ r) = r := extract_low_of_append _ _
  simp only [decodeMop, h1, h2, if_pos]
  exact if_neg h

@[simp] theorem rsDigest_encodeRs (d : Digest) (c : BitVec 8) : rsDigest (encodeRs d c) = d := extract_high_of_append d c

@[simp] theorem rsCode_encodeRs (d : Digest) (c : BitVec 8) : rsCode (encodeRs d c) = c := extract_low_of_append d c

/-! ### Bytes of a block -/

theorem byteOf_pack (bs : List Byte) (j : Nat) (h : j < 16) : byteOf (pack bs) j = bs.getD j 0 := by
  induction bs generalizing j with
  | nil =>
    apply BitVec.eq_of_getLsbD_eq
    simp [byteOf, pack]
  | cons b bs ih =>
    cases j with
    | zero =>
      apply BitVec.eq_of_getLsbD_eq
      intro i hi
      simp [byteOf, pack, BitVec.getLsbD_or, BitVec.getLsbD_setWidth, BitVec.getLsbD_shiftLeft, hi]
      intro _
      omega
    | succ j =>
      rw [List.getD_cons_succ, ← ih j (by omega)]
      apply BitVec.eq_of_getLsbD_eq
      intro i hi
      simp only [byteOf, pack, BitVec.getLsbD_extractLsb', BitVec.getLsbD_or, BitVec.getLsbD_setWidth,
        BitVec.getLsbD_shiftLeft, hi, decide_true, Bool.true_and]
      rw [show 8 * (j + 1) + i - 8 = 8 * j + i by omega]
      simp [show 8 * (j + 1) + i < 128 by omega, show ¬ 8 * (j + 1) + i < 8 by omega,
        BitVec.getLsbD_of_ge b (8 * (j + 1) + i) (by omega)]

/-- Two blocks with the same 16 bytes are the same block. -/
theorem block_ext {x y : Block} (h : ∀ j, j < 16 → byteOf x j = byteOf y j) : x = y := by
  apply BitVec.eq_of_getLsbD_eq
  intro i hi
  have := congrArg (fun b => b.getLsbD (i % 8)) (h (i / 8) (by omega))
  simp only [byteOf, BitVec.getLsbD_extractLsb'] at this
  rw [show 8 * (i / 8) + i % 8 = i by omega] at this
  simpa [show i % 8 < 8 by omega] using this

@[simp] theorem pack_byteOf (x : Block) : pack ((List.range 16).map (byteOf x)) = x := by
  refine block_ext fun j hj => ?_
  rw [byteOf_pack _ _ hj]
  simp [hj, List.getD_eq_getElem?_getD]

theorem byteOf_ofCells (f : Nat → Nat → Byte) (j : Nat) (h : j < 16) : byteOf (ofCells f) j = f (j % 4) (j / 4) := by
  rw [ofCells, byteOf_pack _ _ h]
  simp [h, List.getD_eq_getElem?_getD]

theorem cell_ofCells (f : Nat → Nat → Byte) (r c : Nat) (hr : r < 4) (hc : c < 4) : cell (ofCells f) r c = f r c := by
  rw [cell, byteOf_ofCells _ _ (by omega), show (r + 4 * c) % 4 = r by omega, show (r + 4 * c) / 4 = c by omega]

@[simp] theorem byteOf_xor (x y : Block) (j : Nat) : byteOf (x ^^^ y) j = byteOf x j ^^^ byteOf y j := by
  apply BitVec.eq_of_getLsbD_eq
  intro i hi
  simp [byteOf, hi]

/-! ### Bookkeeping as arithmetic on numbers (41_iteration.md R106) -/

theorem remaining_toNat {w : Nat} {len handled : BitVec w} (h : handled.toNat ≤ len.toNat) :
    (remaining len handled).toNat = len.toNat - handled.toNat := by
  rw [remaining, BitVec.toNat_sub_of_le (BitVec.le_def.2 h)]

/-- No addition of the bookkeeping wraps while the sum stays within LEN. -/
theorem advance_toNat {w : Nat} {handled len : BitVec w} {n : Nat} (h : handled.toNat + n ≤ len.toNat) :
    (advance handled n).toNat = handled.toNat + n := by
  have hl := len.isLt
  rw [advance, BitVec.toNat_add, BitVec.toNat_ofNat, Nat.add_mod_mod, Nat.mod_eq_of_lt (by omega)]

theorem advance_advance {w : Nat} (handled : BitVec w) (n k : Nat) :
    advance (advance handled n) k = advance handled (n + k) := by
  simp [advance, BitVec.ofNat_add, BitVec.add_assoc]

theorem remaining_advance {w : Nat} (len handled : BitVec w) (n : Nat) :
    remaining len (advance handled n) = remaining len handled - BitVec.ofNat w n := by
  simp only [remaining, advance]
  apply BitVec.eq_of_toNat_eq
  simp only [BitVec.toNat_sub, BitVec.toNat_add]
  have h1 := handled.isLt
  have h2 := len.isLt
  have h3 := (BitVec.ofNat w n).isLt
  generalize (BitVec.ofNat w n).toNat = k at *
  generalize handled.toNat = a at *
  generalize len.toNat = b at *
  generalize 2 ^ w = p at *
  by_cases hk : a + k < p
  · rw [Nat.mod_eq_of_lt hk]
    by_cases hab : a ≤ b
    · rw [show p - a + b = p + (b - a) by omega, Nat.add_mod_left, Nat.mod_eq_of_lt (show b - a < p by omega)]
      congr 1; omega
    · rw [Nat.mod_eq_of_lt (show p - a + b < p by omega)]
      rw [show p - k + (p - a + b) = p - (a + k) + b + p by omega, Nat.add_mod_right]
  · rw [show a + k = (a + k - p) + p by omega, Nat.add_mod_right, Nat.mod_eq_of_lt (show a + k - p < p by omega)]
    by_cases hab : a ≤ b
    · rw [show p - a + b = p + (b - a) by omega, Nat.add_mod_left, Nat.mod_eq_of_lt (show b - a < p by omega)]
      rw [show p - (a + k - p) + b = p - k + (b - a) + p by omega, Nat.add_mod_right]
    · rw [Nat.mod_eq_of_lt (show p - a + b < p by omega)]
      congr 1; omega

theorem shortCount_toNat {w : Nat} {len handled : BitVec w} (h : handled.toNat ≤ len.toNat)
    (hr : len.toNat - handled.toNat < 16) : (shortCount len handled).toNat = len.toNat - handled.toNat := by
  rw [shortCount, BitVec.extractLsb'_toNat, remaining_toNat h, Nat.shiftRight_zero, Nat.mod_eq_of_lt hr]

theorem anyLeft_iff {w : Nat} {len handled : BitVec w} : anyLeft len handled = true ↔ handled.toNat ≠ len.toNat := by
  simp [anyLeft, BitVec.toNat_inj]

/-! ### What the sequencer selects (41_iteration.md R104) -/

theorem select_pair {w : Nat} {len handled : BitVec w} (h : handled.toNat + 32 ≤ len.toNat) :
    selectMop len handled = 0x20#8 := by
  simp [selectMop, pairLeft, remaining_toNat (show handled.toNat ≤ len.toNat by omega), show 32 ≤ len.toNat - handled.toNat by omega]

theorem select_block {w : Nat} {len handled : BitVec w} (h : handled.toNat + 16 ≤ len.toNat)
    (h' : len.toNat < handled.toNat + 32) : selectMop len handled = 0x10#8 := by
  simp [selectMop, pairLeft, blockLeft, remaining_toNat (show handled.toNat ≤ len.toNat by omega),
    show ¬ 32 ≤ len.toNat - handled.toNat by omega, show 16 ≤ len.toNat - handled.toNat by omega]

theorem select_short {w : Nat} {len handled : BitVec w} (h : handled.toNat < len.toNat)
    (h' : len.toNat < handled.toNat + 16) : selectMop len handled = 0x3#4 ++ shortCount len handled := by
  have ha : anyLeft len handled = true := anyLeft_iff.2 (by omega)
  simp only [selectMop, pairLeft, blockLeft, remaining_toNat (show handled.toNat ≤ len.toNat by omega),
    show ¬ 32 ≤ len.toNat - handled.toNat by omega, show ¬ 16 ≤ len.toNat - handled.toNat by omega, decide_false, ha]
  simp

theorem select_fold {w : Nat} (len : BitVec w) : selectMop len len = 0x40#8 := by
  simp [selectMop, pairLeft, blockLeft, anyLeft, remaining]

end Sys2Proof.Machine
end

