-- ==== Sys2Proof/Laws/Hash.lean ====
section
/-! SUPPORT. The function Hash as it grows with the bytes read, and the record of reads. -/

namespace Sys2Proof.Machine

/-! ### Hash over a growing sequence -/

/-- A full block lies in the first bytes, so bytes behind it do not matter. -/
theorem blockAt_append {b x : List Byte} {i : Nat} (h : 16 * i + 16 ≤ b.length) : blockAt (b ++ x) i = blockAt b i := by
  simp only [blockAt]
  rw [List.drop_append_of_le_length (by omega), List.take_append_of_le_length (by simp; omega)]

theorem hState_append (c : Cipher) {b x : List Byte} {q : Nat} (h : 16 * q ≤ b.length) :
    hState c (b ++ x) q = hState c b q := by
  induction q with
  | zero => rfl
  | succ q ih => simp only [hState]; rw [ih (by omega), blockAt_append (by omega)]

theorem hEnd_full (c : Cipher) (b : List Byte) {n : Nat} (h : n % 16 = 0) : hEnd c b n = hState c b (n / 16) := by
  simp [hEnd, h]

@[simp] theorem hEnd_zero (c : Cipher) (b : List Byte) : hEnd c b 0 = 0 := rfl

/-- Absorbing one more block, full or short, after full blocks. -/
theorem hEnd_step (c : Cipher) {b x : List Byte} (hb : b.length % 16 = 0) (h1 : 1 ≤ x.length) (h2 : x.length ≤ 16) :
    hEnd c (b ++ x) (b.length + x.length) = compress c (pack x) (hEnd c b b.length) := by
  have hq : 16 * (b.length / 16) = b.length := by omega
  rw [hEnd_full c b hb]
  by_cases hx : x.length = 16
  · rw [hEnd_full _ _ (by omega), show (b.length + x.length) / 16 = b.length / 16 + 1 by omega, hState]
    rw [hState_append c (by omega), blockAt, hq, List.drop_left, ← hx, List.take_length]
  · rw [hEnd, if_neg (by omega), show (b.length + x.length) / 16 = b.length / 16 by omega,
      show (b.length + x.length) % 16 = x.length by omega, hState_append c (by omega), hq, List.drop_left, List.take_length]

/-! ### The record of reads -/

@[simp] theorem readBytes_nil : readBytes [] = [] := rfl

@[simp] theorem readBytes_append (es fs : List ReadEvent) : readBytes (es ++ fs) = readBytes es ++ readBytes fs := by
  simp [readBytes]

@[simp] theorem readBytes_cons (e : ReadEvent) (es : List ReadEvent) : readBytes (e :: es) = e.bytes ++ readBytes es := rfl

/-- Reads that tile a range return as many bytes as it has. -/
theorem tiles_length {lo hi : Nat} {es : List ReadEvent} (h : tiles lo es hi = true) :
    lo + (readBytes es).length = hi := by
  induction es generalizing lo with
  | nil => simpa [tiles] using h
  | cons e es ih =>
    simp only [tiles, Bool.and_eq_true] at h
    have := ih h.2
    simp only [readBytes_cons, List.length_append]
    omega

/-- One more read behind a tiled range. -/
theorem tiles_snoc {lo hi : Nat} {es : List ReadEvent} (h : tiles lo es hi = true) (ha : hi % 16 = 0) {bs : List Byte}
    (h1 : 1 ≤ bs.length) (h2 : bs.length ≤ 16) : tiles lo (es ++ [⟨hi, bs⟩]) (hi + bs.length) = true := by
  induction es generalizing lo with
  | nil =>
    obtain rfl : lo = hi := by simpa [tiles] using h
    simp [tiles, ha, h1, h2]
  | cons e es ih =>
    simp only [tiles, Bool.and_eq_true, List.cons_append] at h ⊢
    exact ⟨h.1, ih h.2⟩

/-- Every read of a tiled range is aligned, short enough and inside the range. -/
theorem tiles_mem {lo hi : Nat} {es : List ReadEvent} (h : tiles lo es hi = true) {e : ReadEvent} (he : e ∈ es) :
    e.off % 16 = 0 ∧ 1 ≤ e.bytes.length ∧ e.bytes.length ≤ 16 ∧ lo ≤ e.off ∧ e.off + e.bytes.length ≤ hi := by
  induction es generalizing lo with
  | nil => simp at he
  | cons f es ih =>
    simp only [tiles, Bool.and_eq_true, decide_eq_true_eq] at h
    have hlen := tiles_length h.2
    rcases List.mem_cons.1 he with rfl | he
    · exact ⟨h.1.2.1, h.1.2.2.1, h.1.2.2.2, by omega, by omega⟩
    · obtain ⟨a, b, c, d, e⟩ := ih h.2 he
      exact ⟨a, b, c, by omega, e⟩

end Sys2Proof.Machine
end

