-- ==== Sys2Proof/Laws/Memory.lean ====
section
/-! SUPPORT. The buffer: reading, writing, the canonical form, and what the read port answers. -/

namespace Sys2Proof.Machine

/-! ### The canonical form -/

theorem memRises_mono {lo lo' : Nat} (h : lo ≤ lo') {m : Memory} (hm : memRises lo' m = true) : memRises lo m = true := by
  cases m with
  | nil => rfl
  | cons cell m =>
    simp only [memRises, Bool.and_eq_true, decide_eq_true_eq] at hm ⊢
    exact ⟨by omega, hm.2⟩

/-- An offset below every listed offset holds nothing. -/
theorem memByte_of_memRises {lo : Nat} {m : Memory} (hm : memRises lo m = true) {off : Nat} (h : off < lo) :
    memByte m off = none := by
  induction m generalizing lo with
  | nil => rfl
  | cons cell m ih =>
    obtain ⟨a, b⟩ := cell
    simp only [memRises, Bool.and_eq_true, decide_eq_true_eq] at hm
    simp only [memByte]
    rw [if_neg (by omega)]
    exact ih hm.2 (by omega)

theorem memWrite_rises {lo off : Nat} {b : Byte} (h : lo ≤ off) {m : Memory} (hm : memRises lo m = true) :
    memRises lo (memWrite m off b) = true := by
  induction m generalizing lo with
  | nil => simp [memWrite, memRises, h]
  | cons cell m ih =>
    obtain ⟨a, c⟩ := cell
    simp only [memRises, Bool.and_eq_true, decide_eq_true_eq] at hm
    simp only [memWrite]
    split
    · simp only [memRises, Bool.and_eq_true, decide_eq_true_eq]
      exact ⟨h, by omega, hm.2⟩
    · split
      · rename_i hoff
        simp only [memRises, Bool.and_eq_true, decide_eq_true_eq]
        exact ⟨h, hoff ▸ hm.2⟩
      · simp only [memRises, Bool.and_eq_true, decide_eq_true_eq]
        exact ⟨hm.1, ih (by omega) hm.2⟩

/-- The host's write keeps the canonical form. -/
theorem memWrite_wf {m : Memory} (off : Nat) (b : Byte) (hm : Memory.wf m = true) :
    Memory.wf (memWrite m off b) = true := memWrite_rises (Nat.zero_le _) hm

theorem memOf_rises (off : Nat) (bs : List Byte) : memRises off (memOf off bs) = true := by
  induction bs generalizing off with
  | nil => rfl
  | cons b bs ih => simp [memOf, memRises, ih]

/-- A presented buffer is in canonical form. -/
theorem memOf_wf (bs : List Byte) : Memory.wf (memOf 0 bs) = true := memOf_rises 0 bs

/-! ### No byte at or beyond BUFSIZE -/

theorem memBelow_memWrite {size off : Nat} {b : Byte} (h : off < size) {m : Memory} (hm : memBelow size m = true) :
    memBelow size (memWrite m off b) = true := by
  induction m with
  | nil => simp [memWrite, memBelow, h]
  | cons cell m ih =>
    obtain ⟨a, c⟩ := cell
    have hm' : a < size ∧ memBelow size m = true := by simpa [memBelow] using hm
    have ih := ih hm'.2
    simp only [memWrite]
    split
    · simpa [memBelow, h] using hm
    · split
      · simpa [memBelow, h] using hm'.2
      · simpa [memBelow, hm'.1] using ih

theorem memBelow_memOf (off : Nat) (bs : List Byte) : memBelow (off + bs.length) (memOf off bs) = true := by
  induction bs generalizing off with
  | nil => rfl
  | cons b bs ih =>
    have h := ih (off + 1)
    rw [show off + 1 + bs.length = off + (b :: bs).length by simp; omega] at h
    simp only [memBelow, memOf, List.all_cons, Bool.and_eq_true, decide_eq_true_eq] at h ⊢
    exact ⟨by simp, h⟩

theorem memBelow_mono {n k : Nat} (h : n ≤ k) {m : Memory} (hm : memBelow n m = true) : memBelow k m = true := by
  simp only [memBelow, List.all_eq_true, decide_eq_true_eq] at hm ⊢
  exact fun x hx => Nat.lt_of_lt_of_le (hm x hx) h

/-! ### Reading -/

theorem memByte_memOf (lo : Nat) (bs : List Byte) (i : Nat) : memByte (memOf lo bs) (lo + i) = bs[i]? := by
  induction bs generalizing lo i with
  | nil => rfl
  | cons b bs ih =>
    cases i with
    | zero => simp [memOf, memByte]
    | succ i =>
      have h := ih (lo + 1) i
      rw [show lo + 1 + i = lo + (i + 1) by omega] at h
      simp only [memOf, memByte]
      rw [if_neg (by omega), h]
      rfl

/-- What a run of bytes is: as many as asked for, each the byte at its own offset. -/
theorem memBytes_eq_some {m : Memory} {off n : Nat} {bs : List Byte} :
    memBytes m off n = some bs ↔ bs.length = n ∧ ∀ i, i < n → memByte m (off + i) = bs[i]? := by
  induction n generalizing off bs with
  | zero =>
    simp only [memBytes, Option.some.injEq, Nat.not_lt_zero, false_implies, implies_true, and_true, List.length_eq_zero_iff]
    exact eq_comm
  | succ n ih =>
    simp only [memBytes]
    constructor
    · intro h
      split at h
      · rename_i b bs' hb hbs
        obtain rfl : b :: bs' = bs := by simpa using h
        obtain ⟨hl, hi⟩ := ih.1 hbs
        refine ⟨by simp [hl], fun i hn => ?_⟩
        cases i with
        | zero => simpa using hb
        | succ i =>
          have := hi i (by omega)
          rw [show off + (i + 1) = off + 1 + i by omega, this]
          rfl
      · simp at h
    · rintro ⟨hl, hi⟩
      cases bs with
      | nil => simp at hl
      | cons b bs =>
        have hb : memByte m off = some b := by simpa using hi 0 (by omega)
        have hbs : memBytes m (off + 1) n = some bs := by
          refine ih.2 ⟨by simpa using hl, fun i hn => ?_⟩
          have := hi (i + 1) (by omega)
          rw [show off + (i + 1) = off + 1 + i by omega] at this
          rw [this]
          rfl
        rw [hb, hbs]

/-- Bytes that are all there can be read. -/
theorem memBytes_isSome {m : Memory} {off n : Nat} (h : ∀ i, i < n → (memByte m (off + i)).isSome = true) :
    ∃ bs, memBytes m off n = some bs := by
  induction n generalizing off with
  | zero => exact ⟨[], rfl⟩
  | succ n ih =>
    obtain ⟨b, hb⟩ := Option.isSome_iff_exists.1 (by simpa using h 0 (by omega))
    obtain ⟨bs, hbs⟩ := ih (off := off + 1) fun i hn => by
      have := h (i + 1) (by omega)
      rwa [show off + (i + 1) = off + 1 + i by omega] at this
    exact ⟨b :: bs, by simp [memBytes, hb, hbs]⟩

/-- One byte that is not there leaves the whole run unread. -/
theorem memBytes_eq_none {m : Memory} {lo n off : Nat} (h1 : lo ≤ off) (h2 : off < lo + n) (h : memByte m off = none) :
    memBytes m lo n = none := by
  cases hb : memBytes m lo n with
  | none => rfl
  | some bs =>
    obtain ⟨hl, hi⟩ := memBytes_eq_some.1 hb
    have := hi (off - lo) (by omega)
    rw [show lo + (off - lo) = off by omega, h] at this
    have := List.getElem?_eq_none_iff.1 this.symm
    omega

/-- Reading across a boundary is reading up to it and then on from it. -/
theorem memBytes_append {m : Memory} {off n k : Nat} {bs cs : List Byte} (h : memBytes m off n = some bs)
    (h' : memBytes m (off + n) k = some cs) : memBytes m off (n + k) = some (bs ++ cs) := by
  rw [memBytes_eq_some] at h h' ⊢
  refine ⟨by simp [h.1, h'.1], fun i hi => ?_⟩
  by_cases hn : i < n
  · rw [h.2 i hn, List.getElem?_append_left (by omega)]
  · have := h'.2 (i - n) (by omega)
    rw [show off + n + (i - n) = off + i by omega] at this
    rw [this, List.getElem?_append_right (by omega), h.1]

/-- Two buffers that agree on a range read alike on it. -/
theorem memBytes_congr {m m' : Memory} {off n : Nat} (h : ∀ i, i < n → memByte m (off + i) = memByte m' (off + i)) :
    memBytes m off n = memBytes m' off n := by
  induction n generalizing off with
  | zero => rfl
  | succ n ih =>
    have h0 : memByte m off = memByte m' off := by simpa using h 0 (by omega)
    have hs : memBytes m (off + 1) n = memBytes m' (off + 1) n := ih fun i hi => by
      have := h (i + 1) (by omega)
      rwa [show off + (i + 1) = off + 1 + i by omega] at this
    simp [memBytes, h0, hs]

/-! ### The read port -/

/-- What a read that is answered says. -/
theorem memRead_ok {lenw : Nat} {y : Engine lenw} {off n : Nat} {bs : List Byte} (h : memRead y off n = .ok bs) :
    1 ≤ n ∧ n ≤ 16 ∧ off + n ≤ y.bufsize.toNat ∧ memBytes y.buf off n = some bs := by
  unfold memRead at h
  split at h
  · rename_i hn
    split at h
    · rename_i hb
      simp only [Except.ok.injEq] at h
      exact ⟨hn.1, hn.2.1, hn.2.2, h ▸ hb⟩
    · simp at h
  · simp at h

/-- A read inside the buffer answers when the port holds the bytes. -/
theorem memRead_of_bytes {lenw : Nat} {y : Engine lenw} {off n : Nat} {bs : List Byte} (h1 : 1 ≤ n) (h2 : n ≤ 16)
    (h3 : off + n ≤ y.bufsize.toNat) (hb : memBytes y.buf off n = some bs) : memRead y off n = .ok bs := by
  simp [memRead, h1, h2, h3, hb]

/-- Under host duty H1 a read inside the buffer is answered. -/
theorem memRead_of_portAnswers {lenw : Nat} {y : Engine lenw} (hp : y.PortAnswers) {off n : Nat} (h1 : 1 ≤ n)
    (h2 : n ≤ 16) (h3 : off + n ≤ y.bufsize.toNat) :
    ∃ bs, memBytes y.buf off n = some bs ∧ bs.length = n ∧ memRead y off n = .ok bs := by
  obtain ⟨bs, hb⟩ := memBytes_isSome (m := y.buf) (off := off) (n := n) fun i hi => hp _ (by omega)
  exact ⟨bs, hb, (memBytes_eq_some.1 hb).1, memRead_of_bytes h1 h2 h3 hb⟩

/-- A read inside the buffer with a byte that is not there fails as a port that is silent. -/
theorem memRead_silent {lenw : Nat} {y : Engine lenw} {lo n off : Nat} (hn : n ≤ 16) (hb : lo + n ≤ y.bufsize.toNat)
    (h1 : lo ≤ off) (h2 : off < lo + n) (h : memByte y.buf off = none) : memRead y lo n = .error .portSilent := by
  simp [memRead, show 1 ≤ n by omega, hn, hb, memBytes_eq_none h1 h2 h]

/-- A read inside the buffer fails in one way only. -/
theorem memRead_error {lenw : Nat} {y : Engine lenw} {off n : Nat} {f : Fault} (h1 : 1 ≤ n) (h2 : n ≤ 16)
    (h3 : off + n ≤ y.bufsize.toNat) (h : memRead y off n = .error f) : f = .portSilent := by
  simp only [memRead, h1, h2, h3, and_self, if_true] at h
  split at h <;> simp_all

end Sys2Proof.Machine
end

