-- ==== Sys2Proof/Laws/PerInstr.lean ====
section
/-! SUPPORT. Statements about each instruction as syntax, one lemma per constructor. -/

namespace Sys2Proof.Laws.TableRow

/-- Every word of a well-formed instruction fits the instruction's row of the opcode table, whatever its operand and
whatever LENW is (30_encoding.md R65). -/
def Statement (i : Instr) : Prop := ∀ w : Nat, i.wf w = true → i.row.fits (encode w i) = true

theorem hash (len : Nat) : Statement (.hash len) := by
  intro w _
  simp [encode, Instr.row, OpcodeRow.fits]

theorem init : Statement .init := fun _ _ => rfl

theorem abs1 : Statement .abs1 := fun _ _ => rfl

theorem abs2 : Statement .abs2 := fun _ _ => rfl

theorem abss (r : BitVec 4) : Statement (.abss r) := by
  intro w _
  have h : ∀ r : BitVec 4, (0x3#4 ++ r) &&& 0xF0#8 = 0x30#8 := by decide
  simp [encode, Instr.row, OpcodeRow.fits, h r]

theorem fold : Statement .fold := fun _ _ => rfl

end Sys2Proof.Laws.TableRow
end

