-- ==== Sys2Proof/Laws/State.lean ====
section
/-! SUPPORT. One lemma per field per named update of an engine, and the passage between an engine and the machine. -/

namespace Sys2Proof.Machine

variable {lenw : Nat} (y : Engine lenw)

/-! ### Absorbing a block -/

@[simp] theorem absorbed_h (n : Nat) (bs : List Byte) : (absorbed n bs y).h = compress y.cipher (pack bs) y.h := rfl
@[simp] theorem absorbed_handled (n : Nat) (bs : List Byte) : (absorbed n bs y).handled = advance y.handled n := rfl
@[simp] theorem absorbed_len (n : Nat) (bs : List Byte) : (absorbed n bs y).len = y.len := rfl
@[simp] theorem absorbed_digest (n : Nat) (bs : List Byte) : (absorbed n bs y).digest = y.digest := rfl
@[simp] theorem absorbed_phase (n : Nat) (bs : List Byte) : (absorbed n bs y).phase = y.phase := rfl
@[simp] theorem absorbed_cause (n : Nat) (bs : List Byte) : (absorbed n bs y).cause = y.cause := rfl
@[simp] theorem absorbed_cipher (n : Nat) (bs : List Byte) : (absorbed n bs y).cipher = y.cipher := rfl
@[simp] theorem absorbed_buf (n : Nat) (bs : List Byte) : (absorbed n bs y).buf = y.buf := rfl
@[simp] theorem absorbed_bufsize (n : Nat) (bs : List Byte) : (absorbed n bs y).bufsize = y.bufsize := rfl
@[simp] theorem absorbed_rq (n : Nat) (bs : List Byte) : (absorbed n bs y).rq = y.rq := rfl
@[simp] theorem absorbed_host (n : Nat) (bs : List Byte) : (absorbed n bs y).host = y.host := rfl
@[simp] theorem absorbed_reads (n : Nat) (bs : List Byte) : (absorbed n bs y).reads = y.reads ++ [⟨y.handled.toNat, bs⟩] := rfl
@[simp] theorem absorbed_runs (n : Nat) (bs : List Byte) : (absorbed n bs y).runs = y.runs := rfl
@[simp] theorem absorbed_draws (n : Nat) (bs : List Byte) : (absorbed n bs y).draws = y.draws := rfl

/-! ### Taking an exception -/

@[simp] theorem raise_h (e : Exn) : (raise e y).h = y.h := rfl
@[simp] theorem raise_handled (e : Exn) : (raise e y).handled = y.handled := rfl
@[simp] theorem raise_len (e : Exn) : (raise e y).len = y.len := rfl
@[simp] theorem raise_digest (e : Exn) : (raise e y).digest = 0 := rfl
@[simp] theorem raise_phase (e : Exn) : (raise e y).phase = .done := rfl
@[simp] theorem raise_cause (e : Exn) : (raise e y).cause = e.code := rfl
@[simp] theorem raise_cipher (e : Exn) : (raise e y).cipher = y.cipher := rfl
@[simp] theorem raise_buf (e : Exn) : (raise e y).buf = y.buf := rfl
@[simp] theorem raise_bufsize (e : Exn) : (raise e y).bufsize = y.bufsize := rfl
@[simp] theorem raise_rq (e : Exn) : (raise e y).rq = y.rq := rfl
@[simp] theorem raise_host (e : Exn) : (raise e y).host = y.host := rfl
@[simp] theorem raise_reads (e : Exn) : (raise e y).reads = y.reads := rfl
@[simp] theorem raise_runs (e : Exn) : (raise e y).runs = y.runs := rfl
@[simp] theorem raise_draws (e : Exn) : (raise e y).draws = y.draws := rfl

/-! ### Registers without a value -/

@[simp] theorem forget_h : (forget y).h = Config.freeH y.draws := rfl
@[simp] theorem forget_handled : (forget y).handled = Config.freeHandled lenw y.draws := rfl
@[simp] theorem forget_len : (forget y).len = Config.freeLen lenw y.draws := rfl
@[simp] theorem forget_digest : (forget y).digest = Config.freeDigest y.draws := rfl
@[simp] theorem forget_phase : (forget y).phase = y.phase := rfl
@[simp] theorem forget_cause : (forget y).cause = Config.freeCause y.draws := rfl
@[simp] theorem forget_cipher : (forget y).cipher = y.cipher := rfl
@[simp] theorem forget_buf : (forget y).buf = y.buf := rfl
@[simp] theorem forget_bufsize : (forget y).bufsize = y.bufsize := rfl
@[simp] theorem forget_rq : (forget y).rq = y.rq := rfl
@[simp] theorem forget_host : (forget y).host = y.host := rfl
@[simp] theorem forget_reads : (forget y).reads = y.reads := rfl
@[simp] theorem forget_runs : (forget y).runs = y.runs := rfl
@[simp] theorem forget_draws : (forget y).draws = y.draws + 1 := rfl

/-! ### The response -/

@[simp] theorem respond_h : (respond y).h = Config.freeH y.draws := rfl
@[simp] theorem respond_handled : (respond y).handled = Config.freeHandled lenw y.draws := rfl
@[simp] theorem respond_len : (respond y).len = Config.freeLen lenw y.draws := rfl
@[simp] theorem respond_digest : (respond y).digest = Config.freeDigest y.draws := rfl
@[simp] theorem respond_phase : (respond y).phase = .idle := rfl
@[simp] theorem respond_cause : (respond y).cause = Config.freeCause y.draws := rfl
@[simp] theorem respond_cipher : (respond y).cipher = y.cipher := rfl
@[simp] theorem respond_buf : (respond y).buf = y.buf := rfl
@[simp] theorem respond_bufsize : (respond y).bufsize = y.bufsize := rfl
@[simp] theorem respond_rq : (respond y).rq = y.rq := rfl
@[simp] theorem respond_host : (respond y).host = y.host := rfl
@[simp] theorem respond_reads : (respond y).reads = [] := rfl
@[simp] theorem respond_runs : (respond y).runs = y.runs ++ [⟨some (encodeRs y.digest y.cause), y.reads⟩] := rfl
@[simp] theorem respond_draws : (respond y).draws = y.draws + 1 := rfl

/-! ### Reset -/

@[simp] theorem applyReset_h : (applyReset y).h = Config.freeH y.draws := rfl
@[simp] theorem applyReset_handled : (applyReset y).handled = Config.freeHandled lenw y.draws := rfl
@[simp] theorem applyReset_len : (applyReset y).len = Config.freeLen lenw y.draws := rfl
@[simp] theorem applyReset_digest : (applyReset y).digest = Config.freeDigest y.draws := rfl
@[simp] theorem applyReset_phase : (applyReset y).phase = .idle := rfl
@[simp] theorem applyReset_cause : (applyReset y).cause = Config.freeCause y.draws := rfl
@[simp] theorem applyReset_cipher : (applyReset y).cipher = y.cipher := rfl
@[simp] theorem applyReset_buf : (applyReset y).buf = y.buf := rfl
@[simp] theorem applyReset_bufsize : (applyReset y).bufsize = y.bufsize := rfl
@[simp] theorem applyReset_rq : (applyReset y).rq = y.rq := rfl
@[simp] theorem applyReset_host : (applyReset y).host = y.host := rfl
@[simp] theorem applyReset_reads : (applyReset y).reads = [] := rfl
@[simp] theorem applyReset_runs : (applyReset y).runs = if y.phase = .idle then y.runs else y.runs ++ [⟨none, y.reads⟩] := rfl
@[simp] theorem applyReset_draws : (applyReset y).draws = y.draws + 1 := rfl

/-! ### Presenting a buffer -/

@[simp] theorem presentBuffer_h (bytes : List Byte) (size : BitVec lenw) : (presentBuffer bytes size y).h = y.h := rfl
@[simp] theorem presentBuffer_handled (bytes : List Byte) (size : BitVec lenw) : (presentBuffer bytes size y).handled = y.handled := rfl
@[simp] theorem presentBuffer_len (bytes : List Byte) (size : BitVec lenw) : (presentBuffer bytes size y).len = y.len := rfl
@[simp] theorem presentBuffer_digest (bytes : List Byte) (size : BitVec lenw) : (presentBuffer bytes size y).digest = y.digest := rfl
@[simp] theorem presentBuffer_phase (bytes : List Byte) (size : BitVec lenw) : (presentBuffer bytes size y).phase = y.phase := rfl
@[simp] theorem presentBuffer_cause (bytes : List Byte) (size : BitVec lenw) : (presentBuffer bytes size y).cause = y.cause := rfl
@[simp] theorem presentBuffer_cipher (bytes : List Byte) (size : BitVec lenw) : (presentBuffer bytes size y).cipher = y.cipher := rfl
@[simp] theorem presentBuffer_buf (bytes : List Byte) (size : BitVec lenw) : (presentBuffer bytes size y).buf = memOf 0 (bytes.take size.toNat) := rfl
@[simp] theorem presentBuffer_bufsize (bytes : List Byte) (size : BitVec lenw) : (presentBuffer bytes size y).bufsize = size := rfl
@[simp] theorem presentBuffer_rq (bytes : List Byte) (size : BitVec lenw) : (presentBuffer bytes size y).rq = y.rq := rfl
@[simp] theorem presentBuffer_host (bytes : List Byte) (size : BitVec lenw) : (presentBuffer bytes size y).host = y.host := rfl
@[simp] theorem presentBuffer_reads (bytes : List Byte) (size : BitVec lenw) : (presentBuffer bytes size y).reads = y.reads := rfl
@[simp] theorem presentBuffer_runs (bytes : List Byte) (size : BitVec lenw) : (presentBuffer bytes size y).runs = y.runs := rfl
@[simp] theorem presentBuffer_draws (bytes : List Byte) (size : BitVec lenw) : (presentBuffer bytes size y).draws = y.draws := rfl

/-! ### Writing the buffer -/

@[simp] theorem writeBuffer_h (off : Nat) (b : Byte) : (writeBuffer off b y).h = y.h := by
  unfold writeBuffer; split <;> rfl
@[simp] theorem writeBuffer_handled (off : Nat) (b : Byte) : (writeBuffer off b y).handled = y.handled := by
  unfold writeBuffer; split <;> rfl
@[simp] theorem writeBuffer_len (off : Nat) (b : Byte) : (writeBuffer off b y).len = y.len := by
  unfold writeBuffer; split <;> rfl
@[simp] theorem writeBuffer_digest (off : Nat) (b : Byte) : (writeBuffer off b y).digest = y.digest := by
  unfold writeBuffer; split <;> rfl
@[simp] theorem writeBuffer_phase (off : Nat) (b : Byte) : (writeBuffer off b y).phase = y.phase := by
  unfold writeBuffer; split <;> rfl
@[simp] theorem writeBuffer_cause (off : Nat) (b : Byte) : (writeBuffer off b y).cause = y.cause := by
  unfold writeBuffer; split <;> rfl
@[simp] theorem writeBuffer_cipher (off : Nat) (b : Byte) : (writeBuffer off b y).cipher = y.cipher := by
  unfold writeBuffer; split <;> rfl
theorem writeBuffer_buf (off : Nat) (b : Byte) : (writeBuffer off b y).buf = if off < y.bufsize.toNat then memWrite y.buf off b else y.buf := by
  unfold writeBuffer; split <;> rfl
@[simp] theorem writeBuffer_bufsize (off : Nat) (b : Byte) : (writeBuffer off b y).bufsize = y.bufsize := by
  unfold writeBuffer; split <;> rfl
@[simp] theorem writeBuffer_rq (off : Nat) (b : Byte) : (writeBuffer off b y).rq = y.rq := by
  unfold writeBuffer; split <;> rfl
@[simp] theorem writeBuffer_host (off : Nat) (b : Byte) : (writeBuffer off b y).host = y.host := by
  unfold writeBuffer; split <;> rfl
@[simp] theorem writeBuffer_reads (off : Nat) (b : Byte) : (writeBuffer off b y).reads = y.reads := by
  unfold writeBuffer; split <;> rfl
@[simp] theorem writeBuffer_runs (off : Nat) (b : Byte) : (writeBuffer off b y).runs = y.runs := by
  unfold writeBuffer; split <;> rfl
@[simp] theorem writeBuffer_draws (off : Nat) (b : Byte) : (writeBuffer off b y).draws = y.draws := by
  unfold writeBuffer; split <;> rfl

/-! ### Taking a word from its channel -/

@[simp] theorem taken_h (wire : Wire lenw) : (taken wire y).h = y.h := by
  cases wire <;> rfl
@[simp] theorem taken_handled (wire : Wire lenw) : (taken wire y).handled = y.handled := by
  cases wire <;> rfl
@[simp] theorem taken_len (wire : Wire lenw) : (taken wire y).len = y.len := by
  cases wire <;> rfl
@[simp] theorem taken_digest (wire : Wire lenw) : (taken wire y).digest = y.digest := by
  cases wire <;> rfl
@[simp] theorem taken_phase (wire : Wire lenw) : (taken wire y).phase = y.phase := by
  cases wire <;> rfl
@[simp] theorem taken_cause (wire : Wire lenw) : (taken wire y).cause = y.cause := by
  cases wire <;> rfl
@[simp] theorem taken_cipher (wire : Wire lenw) : (taken wire y).cipher = y.cipher := by
  cases wire <;> rfl
@[simp] theorem taken_buf (wire : Wire lenw) : (taken wire y).buf = y.buf := by
  cases wire <;> rfl
@[simp] theorem taken_bufsize (wire : Wire lenw) : (taken wire y).bufsize = y.bufsize := by
  cases wire <;> rfl
@[simp] theorem taken_rq_rq (word : BitVec (lenw + 8)) : (taken (.rq word) y).rq = none := rfl
@[simp] theorem taken_mop (word : BitVec 8) : taken (.mop word) y = y := rfl
@[simp] theorem taken_host (wire : Wire lenw) : (taken wire y).host = y.host := by
  cases wire <;> rfl
@[simp] theorem taken_reads (wire : Wire lenw) : (taken wire y).reads = y.reads := by
  cases wire <;> rfl
@[simp] theorem taken_runs (wire : Wire lenw) : (taken wire y).runs = y.runs := by
  cases wire <;> rfl
@[simp] theorem taken_draws (wire : Wire lenw) : (taken wire y).draws = y.draws := by
  cases wire <;> rfl

/-! ### Between an engine and the machine -/

@[simp] theorem lift_next (s : State) (y : Engine s.lenw) : s.lift (.next y) = .next ⟨s.lenw, y⟩ := rfl
@[simp] theorem lift_fault (s : State) (f : Fault) : s.lift (.fault f) = .fault f := rfl
@[simp] theorem lift_refused (s : State) (r : Refusal) : s.lift (.refused r) = .refused r := rfl

/-- What a lifted operation answers with a next state: the operation did, on an engine of the same LENW. -/
theorem lift_eq_next (s t : State) (r : Result (Engine s.lenw)) :
    s.lift r = .next t ↔ ∃ z, r = .next z ∧ t = ⟨s.lenw, z⟩ := by
  cases r <;> simp [State.lift, eq_comm]

@[simp] theorem andThen_next {α β : Type} (a : α) (f : α → Result β) : andThen (.next a) f = f a := rfl
@[simp] theorem andThen_fault {α β : Type} (x : Fault) (f : α → Result β) : andThen (.fault x) f = .fault x := rfl
@[simp] theorem andThen_refused {α β : Type} (x : Refusal) (f : α → Result β) : andThen (.refused x) f = .refused x := rfl

end Sys2Proof.Machine
end

