-- ==== Sys2Proof/Laws/Step.lean ====
section
/-! SUPPORT. What each operation and each step can do, said once. -/

namespace Sys2Proof.Machine

variable {w : Nat} {y z : Engine w}

/-! ### The operations on an engine -/

theorem absorb_eq_next {n : Nat} :
    absorb n y = .next z ↔ ∃ bs, memRead y y.handled.toNat n = .ok bs ∧ z = absorbed n bs y := by
  unfold absorb
  split
  · simp [*]
  · simp [*, eq_comm]

theorem acceptHash_eq_next {len : Nat} :
    acceptHash len y = .next z ↔ y.phase = .idle ∧
      ((y.bufsize.toNat < len ∧ z = raise .invalidLength y) ∨
       (len ≤ y.bufsize.toNat ∧ z = { y with len := BitVec.ofNat w len, cause := 0x00#8, phase := .start })) := by
  unfold acceptHash
  by_cases hp : y.phase = .idle
  · by_cases hl : y.bufsize.toNat < len
    · simp [hp, hl, eq_comm]
    · simp [hp, hl, eq_comm, Nat.le_of_not_lt hl]
  · simp [hp]

theorem initOp_eq_next :
    initOp y = .next z ↔ y.phase = .start ∧ z = { y with h := 0, handled := 0, phase := .absorb } := by
  unfold initOp
  by_cases hp : y.phase = .start <;> simp [hp, eq_comm]

theorem abs1Op_eq_next :
    abs1Op y = .next z ↔ y.phase = .absorb ∧ 16 ≤ (remaining y.len y.handled).toNat ∧
      ∃ bs, memRead y y.handled.toNat 16 = .ok bs ∧ z = absorbed 16 bs y := by
  unfold abs1Op
  by_cases hp : y.phase = .absorb
  · by_cases hr : 16 ≤ (remaining y.len y.handled).toNat <;> simp [hp, hr, absorb_eq_next]
  · simp [hp]

/-- The two blocks of ABS2, as one block after another. -/
theorem abs2Op_eq_next :
    abs2Op y = .next z ↔ y.phase = .absorb ∧ 32 ≤ (remaining y.len y.handled).toNat ∧
      ∃ bs cs, memRead y y.handled.toNat 16 = .ok bs ∧ memRead y (advance y.handled 16).toNat 16 = .ok cs ∧
        z = absorbed 16 cs (absorbed 16 bs y) := by
  unfold abs2Op
  by_cases hp : y.phase = .absorb
  · by_cases hr : 32 ≤ (remaining y.len y.handled).toNat
    · simp only [hp, ne_eq, not_true_eq_false, if_false, hr, if_true, true_and]
      cases h1 : memRead y y.handled.toNat 16 with
      | error f => simp
      | ok bs =>
        cases h2 : memRead y (advance y.handled 16).toNat 16 with
        | error f => simp
        | ok cs => simp [absorbed, advance_advance, hp, eq_comm]
    · simp [hp, hr]
  · simp [hp]

theorem abssOp_eq_next {r : BitVec 4} :
    abssOp r y = .next z ↔ y.phase = .absorb ∧ r ≠ 0#4 ∧ (remaining y.len y.handled).toNat = r.toNat ∧
      ∃ bs, memRead y y.handled.toNat r.toNat = .ok bs ∧ z = absorbed r.toNat bs y := by
  unfold abssOp
  by_cases h0 : r = 0#4
  · simp [h0]
  · by_cases hp : y.phase = .absorb
    · by_cases hr : (remaining y.len y.handled).toNat = r.toNat <;> simp [h0, hp, hr, absorb_eq_next]
    · simp [h0, hp]

theorem foldOp_eq_next :
    foldOp y = .next z ↔ y.phase = .absorb ∧ y.handled = y.len ∧
      z = { y with digest := foldBlock y.h, phase := .done } := by
  unfold foldOp
  by_cases hp : y.phase = .absorb
  · by_cases hr : y.handled = y.len <;> simp [hp, hr, eq_comm]
  · simp [hp]

/-- A second read, after the first block is absorbed, is the same read. -/
theorem memRead_absorbed {n off k : Nat} {bs : List Byte} : memRead (absorbed n bs y) off k = memRead y off k := rfl

/-! ### The machine -/

theorem exec_eq_next {i : Instr} {t : State} :
    exec i ⟨w, y⟩ = .next t ↔ ∃ z : Engine w, t = ⟨w, z⟩ ∧
      (match i with
      | .hash len => acceptHash len y
      | .init => initOp y
      | .abs1 => abs1Op y
      | .abs2 => abs2Op y
      | .abss r => abssOp r y
      | .fold => foldOp y) = .next z := by
  cases i <;>
    simp only [exec, execHash, execInit, execAbs1, execAbs2, execAbss, execFold, lift_eq_next] <;>
    exact exists_congr fun _ => and_comm

/-- What the engine's own step can do: take a request word and refuse its command, refuse its length, or start the call;
initialise; absorb one block of the `n` bytes that are left, or of 16 of them; absorb two blocks; fold. -/
inductive EngineMove (y : Engine w) : Engine w → Prop
  | illegalCommand (word : BitVec (w + 8)) (hp : y.phase = .idle) (hq : y.rq = some word) (hc : rqCmd word ≠ 0x01#8) :
      EngineMove y (raise .illegalCommand { y with rq := none })
  | invalidLength (word : BitVec (w + 8)) (hp : y.phase = .idle) (hq : y.rq = some word) (hc : rqCmd word = 0x01#8)
      (hl : y.bufsize.toNat < (rqLen word).toNat) : EngineMove y (raise .invalidLength { y with rq := none })
  | accept (word : BitVec (w + 8)) (hp : y.phase = .idle) (hq : y.rq = some word) (hc : rqCmd word = 0x01#8)
      (hl : (rqLen word).toNat ≤ y.bufsize.toNat) :
      EngineMove y { y with rq := none, len := rqLen word, cause := 0x00#8, phase := .start }
  | init (hp : y.phase = .start) : EngineMove y { y with h := 0, handled := 0, phase := .absorb }
  | block (n : Nat) (bs : List Byte) (hp : y.phase = .absorb) (h1 : 1 ≤ n) (h2 : n ≤ (remaining y.len y.handled).toNat)
      (h3 : n = 16 ∨ n = (remaining y.len y.handled).toNat) (hr : memRead y y.handled.toNat n = .ok bs) :
      EngineMove y (absorbed n bs y)
  | pair (bs cs : List Byte) (hp : y.phase = .absorb) (h2 : 32 ≤ (remaining y.len y.handled).toNat)
      (hb : memRead y y.handled.toNat 16 = .ok bs) (hc : memRead y (advance y.handled 16).toNat 16 = .ok cs) :
      EngineMove y (absorbed 16 cs (absorbed 16 bs y))
  | fold (hp : y.phase = .absorb) (hl : y.handled = y.len) :
      EngineMove y { y with digest := foldBlock y.h, phase := .done }

/-- What the engine's own step never changes, and what it changes only in IDLE. -/
theorem EngineMove.frame (h : EngineMove y z) :
    z.cipher = y.cipher ∧ z.buf = y.buf ∧ z.bufsize = y.bufsize ∧ z.host = y.host ∧ z.runs = y.runs ∧ z.draws = y.draws ∧
      (y.phase ≠ .idle → z.rq = y.rq ∧ z.len = y.len ∧ z.cause = y.cause) := by
  cases h <;> simp_all

theorem runWire_of_decode {wire : Wire w} {i : Instr} (h : decode wire = some i) :
    runWire wire y = exec i ⟨w, taken wire y⟩ := by
  simp [runWire, h]

theorem shortCount_of_lt {w : Nat} {len handled : BitVec w} (h : ¬ 16 ≤ (remaining len handled).toNat) :
    (shortCount len handled).toNat = (remaining len handled).toNat := by
  rw [shortCount, BitVec.extractLsb'_toNat, Nat.shiftRight_zero, Nat.mod_eq_of_lt (by omega)]

theorem remaining_pos {w : Nat} {len handled : BitVec w} (h : handled ≠ len) : 1 ≤ (remaining len handled).toNat := by
  rcases Nat.eq_zero_or_pos (remaining len handled).toNat with h0 | h0
  · exfalso
    have h1 : len - handled = 0 := BitVec.eq_of_toNat_eq (by simpa [remaining] using h0)
    exact h (by rw [← BitVec.sub_add_cancel len handled, h1]; simp)
  · exact h0

/-- The operation the sequencer selects, whatever LEN and HANDLED hold. -/
theorem decode_select {w : Nat} (len handled : BitVec w) :
    decodeMop (selectMop len handled) =
      some (if 32 ≤ (remaining len handled).toNat then .abs2
        else if 16 ≤ (remaining len handled).toNat then .abs1
        else if handled ≠ len then .abss (shortCount len handled) else .fold) := by
  by_cases h32 : 32 ≤ (remaining len handled).toNat
  · simp only [selectMop, pairLeft, h32, decide_true, if_true]; rfl
  by_cases h16 : 16 ≤ (remaining len handled).toNat
  · simp only [selectMop, pairLeft, blockLeft, h32, h16, decide_true, decide_false, if_true, if_false]; rfl
  by_cases hne : handled ≠ len
  · have hr : shortCount len handled ≠ 0 := fun h0 => by
      have := shortCount_of_lt h16
      have := remaining_pos hne
      simp [h0] at *
      omega
    simp only [selectMop, pairLeft, blockLeft, anyLeft, h32, h16, hne, decide_true, decide_false, if_true, if_false,
      Bool.false_eq_true, ne_eq, not_false_eq_true]
    exact decodeMop_abss _ hr
  · simp only [selectMop, pairLeft, blockLeft, anyLeft, h32, h16, hne, decide_false, if_false, Bool.false_eq_true]
    rfl

/-- Everything the engine's own step can do, when it has a next state. -/
theorem engineStep_move {t : State} (h : engineStep y = .next t) : ∃ z : Engine w, t = ⟨w, z⟩ ∧ EngineMove y z := by
  unfold engineStep at h
  split at h
  · rename_i wire hf
    unfold fetch at hf
    cases hp : y.phase with
    | idle =>
      obtain ⟨word, hq, rfl⟩ : ∃ word, y.rq = some word ∧ Wire.rq word = wire := by simpa [hp] using hf
      by_cases hc : rqCmd word = 0x01#8
      · rw [runWire_of_decode (i := .hash (rqLen word).toNat) (by simp [decode, decodeRq, hc]), exec_eq_next] at h
        obtain ⟨z, rfl, hz⟩ := h
        obtain ⟨-, ⟨hl, rfl⟩ | ⟨hl, rfl⟩⟩ := acceptHash_eq_next.1 hz
        · exact ⟨_, rfl, .invalidLength word hp hq hc hl⟩
        · refine ⟨_, rfl, ?_⟩
          rw [BitVec.ofNat_toNat, BitVec.setWidth_eq]
          exact .accept word hp hq hc hl
      · simp only [runWire, decode, decodeRq, hc, if_false, Host.Outcome.next.injEq] at h
        exact ⟨_, h.symm, .illegalCommand word hp hq hc⟩
    | start =>
      obtain rfl : Wire.mop 0x00#8 = wire := by simpa [hp] using hf
      rw [runWire_of_decode (i := .init) rfl, exec_eq_next] at h
      obtain ⟨z, rfl, hz⟩ := h
      obtain ⟨-, rfl⟩ := initOp_eq_next.1 hz
      exact ⟨_, rfl, .init hp⟩
    | absorb =>
      obtain rfl : Wire.mop (selectMop y.len y.handled) = wire := by simpa [hp] using hf
      rw [runWire_of_decode (show decode (Wire.mop (lenw := w) _) = _ from decode_select _ _), exec_eq_next, taken_mop] at h
      obtain ⟨z, rfl, hz⟩ := h
      refine ⟨z, rfl, ?_⟩
      by_cases h32 : 32 ≤ (remaining y.len y.handled).toNat
      · simp only [h32, if_true] at hz
        obtain ⟨-, -, bs, cs, hb, hc, rfl⟩ := abs2Op_eq_next.1 hz
        exact .pair bs cs hp h32 hb hc
      by_cases h16 : 16 ≤ (remaining y.len y.handled).toNat
      · simp only [h32, h16, if_true, if_false] at hz
        obtain ⟨-, -, bs, hb, rfl⟩ := abs1Op_eq_next.1 hz
        exact .block 16 bs hp (by omega) h16 (.inl rfl) hb
      by_cases hne : y.handled ≠ y.len
      · simp only [h32, h16, hne, if_true, if_false, ne_eq, not_false_eq_true] at hz
        obtain ⟨-, -, hr, bs, hb, rfl⟩ := abssOp_eq_next.1 hz
        exact .block _ bs hp (hr ▸ remaining_pos hne) (by omega) (.inr hr.symm) hb
      · simp only [h32, h16, hne, if_false] at hz
        obtain ⟨-, hl, rfl⟩ := foldOp_eq_next.1 hz
        exact .fold hp hl
    | done => simp [hp] at hf
  · simp at h

/-- Everything a step of the machine can do, when it has a next state: a host move that is enabled, a pause of a host whose
engine has no step, or the engine's step, with a pause used up or not. -/
theorem turn_cases {t : State} (h : turn y = .next t) :
    (∃ m rest, y.host = m :: rest ∧ m ≠ .pause ∧ moveEnabled y m = true ∧ t = ⟨w, hostMove { y with host := rest } m⟩) ∨
    (∃ rest, y.host = .pause :: rest ∧ fetch y = none ∧ t = ⟨w, { y with host := rest }⟩) ∨
    (∃ rest z, y.host = .pause :: rest ∧ t = ⟨w, z⟩ ∧ EngineMove { y with host := rest } z) ∨
    (∃ z, t = ⟨w, z⟩ ∧ EngineMove y z) := by
  unfold turn at h
  split at h
  · exact .inr (.inr (.inr (engineStep_move h)))
  · rename_i rest hh
    split at h
    · obtain ⟨z, hz, hm⟩ := engineStep_move h
      exact .inr (.inr (.inl ⟨rest, z, hh, hz, hm⟩))
    · rename_i hf
      exact .inr (.inl ⟨rest, hh, by simpa using hf, by simpa using h.symm⟩)
  · rename_i m rest hm hh
    split at h
    · rename_i he
      exact .inl ⟨m, rest, hh, hm, he, by simpa using h.symm⟩
    · exact .inr (.inr (.inr (engineStep_move h)))

end Sys2Proof.Machine
end

