-- ==== Sys2Proof/Laws/Run.lean ====
section
/-! SUPPORT. Runs of the machine, step by step, and the turn of the engine. -/

namespace Sys2Proof.Machine

theorem run_zero (s : State) : Host.Core.run core 0 s = .next s := rfl

theorem run_succ {k : Nat} {s t : State} (h : step s = .next t) :
    Host.Core.run core (k + 1) s = Host.Core.run core k t := by
  simp only [Host.Core.run]
  rw [show core.step s = .next t from h]

/-- A run that gives a state began with a step that gave one, if it took a step at all. -/
theorem run_succ_inv {k : Nat} {s t : State} (h : Host.Core.run core (k + 1) s = .next t) :
    ∃ s', step s = .next s' ∧ Host.Core.run core k s' = .next t := by
  cases hs : step s with
  | next s' => exact ⟨s', rfl, run_succ hs ▸ h⟩
  | fault f =>
    simp only [Host.Core.run] at h
    rw [show core.step s = .fault f from hs] at h
    cases h
  | refused r =>
    simp only [Host.Core.run] at h
    rw [show core.step s = .refused r from hs] at h
    cases h

theorem run_add {k m : Nat} {s t : State} (h : Host.Core.run core k s = .next t) :
    Host.Core.run core (k + m) s = Host.Core.run core m t := by
  induction k generalizing s with
  | zero =>
    obtain rfl : s = t := by rw [run_zero] at h; injection h
    rw [Nat.zero_add]
  | succ k ih =>
    obtain ⟨s', hs, hr⟩ := run_succ_inv h
    rw [show k + 1 + m = k + m + 1 by omega, run_succ hs, ih hr]

/-- What every step keeps, every run keeps. -/
theorem run_keeps {P : State → Prop} (hP : ∀ s t, P s → step s = .next t → P t) {k : Nat} {s t : State} (hs : P s)
    (h : Host.Core.run core k s = .next t) : P t := by
  induction k generalizing s with
  | zero => rw [run_zero] at h; injection h with h; exact h ▸ hs
  | succ k ih =>
    obtain ⟨s', h1, h2⟩ := run_succ_inv h
    exact ih (hP s s' hs h1) h2

theorem executed_succ {w k : Nat} {y : Engine w} {t : State} {wire : Wire w} {i : Instr} (hf : fetch y = some wire)
    (hd : decode wire = some i) (h : step ⟨w, y⟩ = .next t) : executed (k + 1) ⟨w, y⟩ = i :: executed k t := by
  simp [executed, hf, hd, h]

/-- It is the engine's turn when the host has no move left or its next one is not enabled. -/
theorem step_of_host_waiting {w : Nat} {y : Engine w}
    (h : y.host = [] ∨ ∃ m rest, y.host = m :: rest ∧ moveEnabled y m = false) : step ⟨w, y⟩ = engineStep y := by
  rcases h with h | ⟨m, rest, h, he⟩
  · simp [step, turn, h]
  · have hm : m ≠ .pause := fun hm => by simp [hm, moveEnabled] at he
    cases m <;> simp_all [step, turn]

/-! ### A pause used up -/

variable {w : Nat} (y : Engine w)

theorem pauseUsed_of_pause {rest : List (HostMove w)} (h : y.host = .pause :: rest) :
    y.pauseUsed = { y with host := rest } := by
  simp [Engine.pauseUsed, h]

theorem pauseUsed_of_ne (h : ∀ rest, y.host ≠ .pause :: rest) : y.pauseUsed = y := by
  unfold Engine.pauseUsed
  split
  · rename_i rest hh; exact absurd hh (h rest)
  · rfl

/-- Using up a pause changes the host's moves alone. -/
theorem pauseUsed_eq : ∃ host, y.pauseUsed = { y with host := host } := by
  unfold Engine.pauseUsed
  split
  · exact ⟨_, rfl⟩
  · exact ⟨y.host, rfl⟩

@[simp] theorem pauseUsed_h : y.pauseUsed.h = y.h := by unfold Engine.pauseUsed; split <;> rfl
@[simp] theorem pauseUsed_handled : y.pauseUsed.handled = y.handled := by unfold Engine.pauseUsed; split <;> rfl
@[simp] theorem pauseUsed_len : y.pauseUsed.len = y.len := by unfold Engine.pauseUsed; split <;> rfl
@[simp] theorem pauseUsed_digest : y.pauseUsed.digest = y.digest := by unfold Engine.pauseUsed; split <;> rfl
@[simp] theorem pauseUsed_phase : y.pauseUsed.phase = y.phase := by unfold Engine.pauseUsed; split <;> rfl
@[simp] theorem pauseUsed_cause : y.pauseUsed.cause = y.cause := by unfold Engine.pauseUsed; split <;> rfl
@[simp] theorem pauseUsed_cipher : y.pauseUsed.cipher = y.cipher := by unfold Engine.pauseUsed; split <;> rfl
@[simp] theorem pauseUsed_buf : y.pauseUsed.buf = y.buf := by unfold Engine.pauseUsed; split <;> rfl
@[simp] theorem pauseUsed_bufsize : y.pauseUsed.bufsize = y.bufsize := by unfold Engine.pauseUsed; split <;> rfl
@[simp] theorem pauseUsed_rq : y.pauseUsed.rq = y.rq := by unfold Engine.pauseUsed; split <;> rfl
@[simp] theorem pauseUsed_reads : y.pauseUsed.reads = y.reads := by unfold Engine.pauseUsed; split <;> rfl
@[simp] theorem pauseUsed_runs : y.pauseUsed.runs = y.runs := by unfold Engine.pauseUsed; split <;> rfl
@[simp] theorem pauseUsed_draws : y.pauseUsed.draws = y.draws := by unfold Engine.pauseUsed; split <;> rfl

@[simp] theorem fetch_pauseUsed : fetch y.pauseUsed = fetch y := by unfold fetch; simp

variable {y} in
/-- While the host makes no move of its own, an engine that fetches a word takes its step, a pause being used up. -/
theorem step_of_hostWaits (h : y.HostWaits) (hf : (fetch y).isSome = true) : step ⟨w, y⟩ = engineStep y.pauseUsed := by
  rcases h with h | ⟨rest, h⟩ | ⟨m, rest, h, he⟩
  · rw [step_of_host_waiting (.inl h), pauseUsed_of_ne y (by simp [h])]
  · simp [step, turn, h, hf, pauseUsed_of_pause y h]
  · rw [step_of_host_waiting (.inr ⟨m, rest, h, he⟩), pauseUsed_of_ne y]
    intro rest' h'
    rw [h] at h'
    obtain ⟨rfl, -⟩ := List.cons.inj h'
    simp [moveEnabled] at he

/-- The engine's step in ABSORB is `exec` of the selected operation. -/
theorem engineStep_absorb {w : Nat} {y : Engine w} {i : Instr} (hp : y.phase = .absorb)
    (hd : decodeMop (selectMop y.len y.handled) = some i) : engineStep y = exec i ⟨w, y⟩ := by
  simp only [engineStep, fetch, hp, runWire, decode, hd, taken_mop]

end Sys2Proof.Machine
end

