-- ==== Sys2Proof/Tests/Slice0.lean ====
section
/-! SUPPORT. The model's own tests.  Every expected value is the spec's (95_test_vectors.md and the examples of the rules);
the witnesses meet the hypotheses of the statements. -/

namespace Sys2Proof.Tests

set_option Elab.async false

open Sys2Proof.Machine

/-! ### Small states -/

/-- An engine of LENW 64 with the default CIPHER, in a phase, over a buffer that holds the bytes and nothing else. -/
def engine (p : Phase) (len handled : Nat) (bytes : List Byte) : Engine 64 where
  h := 0
  handled := BitVec.ofNat 64 handled
  len := BitVec.ofNat 64 len
  digest := 0
  phase := p
  cause := 0x00#8
  cipher := .aes
  buf := memOf 0 bytes
  bufsize := BitVec.ofNat 64 bytes.length
  rq := none
  host := []
  reads := []
  runs := []
  draws := 0

/-- The pattern buffer of 95_test_vectors.md section 3.5: the byte at offset i is i. -/
def pattern (n : Nat) : List Byte := (List.range n).map (BitVec.ofNat 8)

def hello : List Byte := [0x68, 0x65, 0x6c, 0x6c, 0x6f]

def helloWorld : List Byte := hello ++ [0x20, 0x77, 0x6f, 0x72, 0x6c, 0x64]

/-- An idle engine over a buffer, a request word offered, and the host's moves to come. -/
def offered (bytes : List Byte) (word : BitVec 72) (host : List (HostMove 64)) : Engine 64 :=
  { engine .idle 0 0 bytes with rq := some word, host := host }

/-- An engine with its response offered. -/
def holding (digest : Digest) (cause : BitVec 8) (host : List (HostMove 64)) : Engine 64 :=
  { engine .done 5 5 hello with digest := digest, cause := cause, host := host }

def nextOf (r : Result State) : Option State :=
  match r with
  | .next t => some t
  | _ => none

def stopOf (r : Result State) : Option (Fault ⊕ Refusal) :=
  match r with
  | .next _ => none
  | .fault f => some (.inl f)
  | .refused r => some (.inr r)

/-- Does the operation or the step give a next state? -/
def runs (r : Result State) : Bool := (nextOf r).isSome

/-- The six registers of Table 10-1, in its order, as numbers. -/
structure Registers where
  h : Nat
  handled : Nat
  len : Nat
  digest : Nat
  phase : Phase
  cause : Nat
  deriving DecidableEq, Repr

/-- The registers of the next state. -/
def registers (r : Result State) : Option Registers :=
  (nextOf r).map fun t => ⟨t.eng.h.toNat, t.eng.handled.toNat, t.eng.len.toNat, t.eng.digest.toNat, t.eng.phase, t.eng.cause.toNat⟩

/-! ### Well-formed instructions -/

theorem test_wf_hash_too_long : (Instr.hash (2 ^ 64)).wf 64 = false := by decide +kernel
theorem test_wf_hash_longest : (Instr.hash (2 ^ 64 - 1)).wf 64 = true := by decide +kernel
theorem test_wf_abss_zero : (Instr.abss 0#4).wf 64 = false := by decide
theorem test_wf_abss_bounds : (Instr.abss 1#4).wf 64 = true ∧ (Instr.abss 15#4).wf 64 = true := by decide

/-! ### Words written out from 30_encoding.md and 95_test_vectors.md section 5 -/

/-- P1, `HASH 5`. -/
theorem test_decode_hash : decode (Wire.rq (lenw := 64) 0x000000000000000501#72) = some (.hash 5) := by decide +kernel
theorem test_decode_hash_longest : decode (Wire.rq (lenw := 64) 0xffffffffffffffff01#72) = some (.hash (2 ^ 64 - 1)) := by
  decide +kernel
/-- P5, three words that are no HASH. -/
theorem test_decode_no_command : decode (Wire.rq (lenw := 64) 0x000000000000000502#72) = none ∧
    decode (Wire.rq (lenw := 64) 0xffffffffffffffffff#72) = none ∧
    decode (Wire.rq (lenw := 64) 0x000000000000000000#72) = none := by decide +kernel
theorem test_decode_init : decodeMop 0b00000000#8 = some .init := by decide
theorem test_decode_abs1 : decodeMop 0b00010000#8 = some .abs1 := by decide
theorem test_decode_abs2 : decodeMop 0b00100000#8 = some .abs2 := by decide
/-- 0x31, 0x3A, 0x3F. -/
theorem test_decode_abss : decodeMop 0b00110001#8 = some (.abss 1#4) ∧ decodeMop 0b00111010#8 = some (.abss 10#4) ∧
    decodeMop 0b00111111#8 = some (.abss 15#4) := by decide
theorem test_decode_fold : decodeMop 0b01000000#8 = some .fold := by decide
theorem test_decode_reserved : decodeMop 0x30#8 = none ∧ decodeMop 0x01#8 = none ∧ decodeMop 0x1F#8 = none ∧
    decodeMop 0x21#8 = none ∧ decodeMop 0x4F#8 = none ∧ decodeMop 0x50#8 = none ∧ decodeMop 0xFF#8 = none := by decide
/-- Exactly 19 MOP words are defined (30_encoding.md R66). -/
theorem test_nineteen_mop_words :
    ((List.range 256).filter fun n => (decodeMop (BitVec.ofNat 8 n)).isSome).length = 19 := by decide +kernel
theorem test_encode_hash : encode 64 (.hash 5) = .rq 0x000000000000000501#72 := by decide +kernel
theorem test_encode_abss : encode 64 (.abss 13#4) = .mop 0x3D#8 := by decide +kernel
/-- P5, the two error responses, and P1's. -/
theorem test_responses : Response.invalidLength.encode = 0x000000000000000001#72 ∧
    Response.illegalCommand.encode = 0x000000000000000002#72 ∧
    (Response.ok 0x52b76b43f9056146).encode = 0x52b76b43f905614600#72 ∧ decodeRs 0x52b76b43f905614603#72 = none := by
  decide +kernel

/-- The listing of 30_encoding.md R68, R131's example. -/
theorem test_listing : (Machine.Instr.text (.hash 5), Machine.Instr.text (.abss 5#4),
    Machine.Response.text (.ok 0x52b76b43f9056146)) = ("HASH 5", "ABSS 5", "OK 0x52b76b43f9056146") := by decide +kernel

/-! ### The opcode table's rows: decoded, and run by the step after reset -/

theorem test_table_words : [decodeTableWord 8 0x01, decodeTableWord 8 0x00, decodeTableWord 8 0x10, decodeTableWord 8 0x20,
    decodeTableWord 8 0x31, decodeTableWord 8 0x40] =
      [some (.hash 0), some .init, some .abs1, some .abs2, some (.abss 1#4), some .fold] := by decide +kernel
theorem test_table_hash_whole_word : decodeTableWord 72 0x4a01 = some (.hash 74) := by decide +kernel
theorem test_table_reserved_word : decodeTableWord 8 0x30 = none ∧ decodeTableWord 72 0x0502 = none := by decide +kernel

/-- The word the machine fetches, as an instruction, and the phase after the step that runs it. -/
def placed (nbits w : Nat) : Option Instr × Option Phase :=
  ((fetch (State.reset.withFetchWord nbits w).eng).bind decode,
   (nextOf (step (State.reset.withFetchWord nbits w))).map fun t => t.eng.phase)

theorem test_place_hash : placed 72 0x01 = (some (.hash 0), some .start) := by decide +kernel
theorem test_place_init : placed 8 0x00 = (some .init, some .absorb) := by decide +kernel
theorem test_place_abs1 : placed 8 0x10 = (some .abs1, some .absorb) := by decide +kernel
theorem test_place_abs2 : placed 8 0x20 = (some .abs2, some .absorb) := by decide +kernel
theorem test_place_abss : placed 8 0x3F = (some (.abss 15#4), some .absorb) := by decide +kernel
theorem test_place_fold : placed 8 0x40 = (some .fold, some .done) := by decide +kernel

/-! ### One operation each -/

/-- R131's corner `len = BUFSIZE`. -/
theorem test_hash_accepts_whole_buffer :
    registers (exec (.hash 11) ⟨64, engine .idle 0 0 helloWorld⟩) = some ⟨0, 0, 11, 0, .start, 0⟩ := by decide +kernel
/-- P5, `HASH 12` on 11 bytes; LEN is not written. -/
theorem test_hash_too_long :
    registers (exec (.hash 12) ⟨64, { engine .idle 3 0 helloWorld with digest := 7 }⟩) = some ⟨0, 0, 3, 0, .done, 1⟩ := by
  decide +kernel
/-- P1, after `accept`, over registers that hold something else. -/
theorem test_init_clears : registers (exec .init ⟨64, { engine .start 5 9 hello with h := 1 }⟩) = some ⟨0, 0, 5, 0, .absorb, 0⟩ := by
  decide +kernel
/-- Section 3.5, LEN = 16. -/
theorem test_abs1_pattern : registers (exec .abs1 ⟨64, engine .absorb 16 0 (pattern 16)⟩) =
    some ⟨0xefc302ccd14adee76efd35714a4c3c02, 16, 16, 0, .absorb, 0⟩ := by decide +kernel
/-- P2, the third block under the H of the first two. -/
theorem test_abs1_uses_old_h :
    registers (exec .abs1 ⟨64, { engine .absorb 49 32 (pattern 49) with h := 0x1d109be912e583143b4fe2966e192c92 }⟩) =
      some ⟨0xf73a7e7320f6fd891ce11ecce0ae4060, 48, 49, 0, .absorb, 0⟩ := by decide +kernel
/-- P2, the first two blocks. -/
theorem test_abs2_pattern : registers (exec .abs2 ⟨64, engine .absorb 49 0 (pattern 49)⟩) =
    some ⟨0x1d109be912e583143b4fe2966e192c92, 32, 49, 0, .absorb, 0⟩ := by decide +kernel
theorem test_abs2_reads : (nextOf (exec .abs2 ⟨64, engine .absorb 49 0 (pattern 49)⟩)).map (fun t => t.eng.reads.map
    fun e => (e.off, e.bytes.length)) = some [(0, 16), (16, 16)] := by decide +kernel
/-- P1; R120's example starts from its H. -/
theorem test_abss_hello : registers (exec (.abss 5#4) ⟨64, engine .absorb 5 0 helloWorld⟩) =
    some ⟨0x53546e821a6e755301e305c1e36b1415, 5, 5, 0, .absorb, 0⟩ := by decide +kernel
/-- P2, the last byte 0x30 alone. -/
theorem test_abss_last_byte :
    registers (exec (.abss 1#4) ⟨64, { engine .absorb 49 48 (pattern 49) with h := 0xf73a7e7320f6fd891ce11ecce0ae4060 }⟩) =
      some ⟨0x79fbb5e06b9b5d25facbe00a792557ba, 49, 49, 0, .absorb, 0⟩ := by decide +kernel
/-- R120's example. -/
theorem test_fold_example :
    (nextOf (exec .fold ⟨64, { engine .absorb 5 5 hello with h := 0x53546e821a6e755301e305c1e36b1415 }⟩)).map
      (fun t => (t.eng.digest, t.eng.phase)) = some (0x52b76b43f9056146, .done) := by decide +kernel
/-- Section 3.3 and section 6: exclusive or, not addition. -/
theorem test_fold_is_xor : foldBlock 0x00000000000000010000000000000001 = 0 ∧
    foldBlock 0x0123456789abcdeffedcba9876543210 = 0xffffffffffffffff := by decide +kernel

/-! ### Steps that are no operation -/

/-- P5: `cmd = 0xff` with the longest length is IllegalCommand, not InvalidLength (R154). -/
theorem test_illegal_command : registers (step ⟨64, offered helloWorld 0xffffffffffffffffff#72 []⟩) =
    some ⟨0, 0, 0, 0, .done, 2⟩ := by decide +kernel
/-- P1's last line. -/
theorem test_respond : (nextOf (step ⟨64, holding 0x52b76b43f9056146 0 [.take]⟩)).map
    (fun t => (t.eng.phase, t.eng.runs.map Run.response)) = some (.idle, [some 0x52b76b43f905614600#72]) := by decide +kernel
/-- R171: no response for the abandoned call. -/
theorem test_reset_in_call : (nextOf (step ⟨64, { engine .absorb 5 0 hello with host := [.reset] }⟩)).map
    (fun t => (t.eng.phase, t.eng.runs.map Run.response)) = some (.idle, [none]) := by decide +kernel
/-- Section 3.4, the row in which HANDLED + 32 would wrap. -/
theorem test_select_at_the_top : selectMop (lenw := 64) (BitVec.ofNat 64 (2 ^ 64 - 1)) (BitVec.ofNat 64 (2 ^ 64 - 32)) = 0x10#8 ∧
    selectMop (lenw := 64) (BitVec.ofNat 64 (2 ^ 64 - 1)) (BitVec.ofNat 64 (2 ^ 64 - 16)) = 0x3F#8 := by decide +kernel
/-- Section 3.4, LEN = 31 and LEN = 49. -/
theorem test_select_rows : selectMop (lenw := 64) 31 0 = 0x10#8 ∧ selectMop (lenw := 64) 31 16 = 0x3F#8 ∧
    selectMop (lenw := 64) 32 0 = 0x20#8 ∧ selectMop (lenw := 64) 49 48 = 0x31#8 ∧ selectMop (lenw := 64) 32 32 = 0x40#8 := by
  decide +kernel
/-- Section 4, "hello world". -/
theorem test_hash_hello_world : hashOf .aes helloWorld 11 = 0x38518dd3e8ee5f84 := by decide +kernel
/-- V-H12 and V-H13: the known collision of P6. -/
theorem test_hash_collision : hashOf .aes [0x61, 0x62] 2 = 0x355724dd57247c2b ∧
    hashOf .aes [0x61, 0x62, 0x00] 3 = 0x355724dd57247c2b := by decide +kernel
/-- Section 3.4, LEN = 63. -/
theorem test_stream_63 : stream 63 = [.init, .abs2, .abs1, .abss 15#4, .fold] := by decide +kernel
/-- Table 40-1, five entries off its check values. -/
theorem test_sbox_entries : sbox 0x10 = 0xca ∧ sbox 0x52 = 0x00 ∧ sbox 0x8f = 0x73 ∧ sbox 0xca = 0x74 ∧ sbox 0xf0 = 0x8c := by
  decide +kernel

/-! ### Witnesses: states and operands that meet the hypotheses of each statement that has some -/

theorem test_meets_DecodeOfEncodeIsTheInstruction : (Instr.hash (2 ^ 64 - 1)).wf 64 = true ∧ Instr.init.wf 64 = true ∧
    Instr.abs1.wf 64 = true ∧ Instr.abs2.wf 64 = true ∧ (Instr.abss 15#4).wf 64 = true ∧ Instr.fold.wf 64 = true := by
  decide +kernel
theorem test_meets_EncodeOfDecodeIsTheWord : decode (Wire.rq (lenw := 64) 0xffffffffffffffff01#72) = some (.hash (2 ^ 64 - 1)) ∧
    decode (Wire.mop (lenw := 64) 0x3F#8) = some (.abss 15#4) := by decide +kernel
theorem test_meets_DecoderFollowsOpcodeTable : decode (Wire.mop (lenw := 64) 0x31#8) = some (.abss 1#4) ∧
    (Instr.abss 1#4).row.fits (Wire.mop (lenw := 64) 0x3F#8) = true ∧
    (Instr.abss 15#4).row.fits (Wire.mop (lenw := 64) 0x3F#8) = true ∧
    (Wire.mop (lenw := 64) 0x3F#8) ≠ .mop 0x30#8 := by decide +kernel
theorem test_meets_ResponseWordsRoundTrip : decodeRs 0x52b76b43f905614600#72 = some (.ok 0x52b76b43f9056146) ∧
    decodeRs 0x000000000000000002#72 = some .illegalCommand := by decide +kernel
theorem test_meets_PackPlacesBytesInOffsetOrder : 1 ≤ (pattern 1).length ∧ (pattern 16).length ≤ 16 ∧
    (pattern 1).length ≤ 16 ∧ 1 ≤ (pattern 16).length := by decide +kernel
theorem test_meets_SubBytesIsTheArithmeticSbox : (15 < 16) ∧ (0x00 : Byte) = 0 ∧ (0xff : Byte) ≠ 0 ∧
    gfMul 0x53 0xca = 1 ∧ sboxAffine 0xca = 0xed := by decide +kernel
theorem test_meets_ShiftRowsRotatesRows :
    cell (shiftRows (pack (pattern 16))) 3 3 = cell (pack (pattern 16)) 3 2 ∧ byteOf (shiftRows (pack (pattern 16))) 15 = 11 := by
  decide +kernel
theorem test_meets_MixColumnsOnEachColumn : cell (mixColumns (pack [0xdb, 0x13, 0x53, 0x45])) 3 0 = 0xbc ∧
    cell (mixColumns (pack (List.replicate 16 0x2f))) 3 3 = 0x2f := by decide +kernel
theorem test_meets_AesCompressKeepsUniformBytes :
    (0 : Block) ^^^ pack (List.replicate 16 0xff) = pack (List.replicate 16 0xff) ∧
    compress .aes 0 (pack (List.replicate 16 0xff)) = pack (List.replicate 16 0xe1) := by decide +kernel
theorem test_meets_FoldXorsTheHalves : (foldBlock 0x80000000000000000000000000000000).getLsbD 63 = true ∧
    (foldBlock 0x0100000000000000).extractLsb' (8 * 7) 8 = 0x01#8 := by decide +kernel
theorem test_meets_BufferWriteThenRead : Memory.wf (memOf 0 hello) = true ∧
    memByte (memWrite (memOf 0 hello) 4 0x21) 4 = some 0x21 ∧ memByte (memWrite (memOf 0 hello) 4 0x21) 3 = some 0x6c := by
  decide +kernel
theorem test_meets_MemReadReturnsTheBufferBytes :
    (match memRead (engine .absorb 5 0 helloWorld) 6 5 with
      | .ok bs => bs == [0x77, 0x6f, 0x72, 0x6c, 0x64]
      | .error _ => false) = true ∧
    (match memRead (engine .absorb 5 0 helloWorld) 7 5 with
      | .ok _ => false
      | .error f => f == .readOutsideBuffer) = true := by decide +kernel

theorem portAnswers_engine : (engine .absorb 48 0 (pattern 48)).PortAnswers ∧ (engine .start 49 0 (pattern 49)).PortAnswers ∧
    (engine .absorb 5 0 hello).PortAnswers ∧ (engine .start 5 0 hello).PortAnswers ∧ (engine .idle 0 0 []).PortAnswers := by
  unfold Engine.PortAnswers
  decide +kernel

theorem test_meets_HashCommandStartsACall : (engine .idle 0 0 hello).phase = .idle ∧
    0 ≤ (engine .idle 0 0 hello).bufsize.toNat ∧ 5 ≤ (engine .idle 0 0 hello).bufsize.toNat := by decide +kernel
theorem test_meets_OverlongHashRaisesInvalidLength : (engine .idle 0 0 hello).phase = .idle ∧
    (engine .idle 0 0 hello).bufsize.toNat < 6 := by decide +kernel
theorem test_meets_InitClearsStateAndCounter : (engine .start 5 3 hello).phase = .start := rfl
/-- 16 bytes left at the start of the buffer, and the last 16 of 48. -/
theorem test_meets_AbsOneAbsorbsOneBlock :
    ∀ y ∈ [engine .absorb 16 0 (pattern 48), engine .absorb 48 32 (pattern 48)], y.phase = .absorb ∧
      y.handled.toNat + 16 ≤ y.len.toNat ∧ y.len.toNat ≤ y.bufsize.toNat ∧ y.PortAnswers := by
  unfold Engine.PortAnswers
  decide +kernel
theorem test_meets_AbsTwoAbsorbsTwoBlocks :
    ∀ y ∈ [engine .absorb 32 0 (pattern 48), engine .absorb 48 16 (pattern 48)], y.phase = .absorb ∧
      y.handled.toNat + 32 ≤ y.len.toNat ∧ y.len.toNat ≤ y.bufsize.toNat ∧ y.PortAnswers ∧
      32 ≤ (remaining y.len y.handled).toNat := by
  unfold Engine.PortAnswers
  decide +kernel
theorem test_meets_AbsShortAbsorbsTheRest :
    ∀ c ∈ [(engine .absorb 5 0 helloWorld, 5#4), (engine .absorb 33 32 (pattern 48), 1#4), (engine .absorb 47 32 (pattern 48), 15#4)],
      c.1.phase = .absorb ∧ c.2 ≠ 0#4 ∧ c.1.handled.toNat + c.2.toNat = c.1.len.toNat ∧
      c.1.len.toNat ≤ c.1.bufsize.toNat ∧ c.1.PortAnswers := by
  unfold Engine.PortAnswers
  decide +kernel
theorem test_meets_FoldExtractsTheDigest : (engine .absorb 5 5 hello).phase = .absorb ∧
    (engine .absorb 5 5 hello).handled = (engine .absorb 5 5 hello).len ∧
    (engine .absorb 0 0 []).handled = (engine .absorb 0 0 []).len := by decide +kernel
/-- The two blocks one by one give P2's state, as ABS2 does. -/
theorem test_meets_AbsTwoIsAbsOneTwice : 32 ≤ (remaining (engine .absorb 49 0 (pattern 49)).len (engine .absorb 49 0 (pattern 49)).handled).toNat ∧
    registers (andThen (exec .abs1 ⟨64, engine .absorb 49 0 (pattern 49)⟩) (exec .abs1)) =
      some ⟨0x1d109be912e583143b4fe2966e192c92, 32, 49, 0, .absorb, 0⟩ := by decide +kernel
/-- Also for OperationsNeedTheirPreconditions: every operation has a next state somewhere. -/
theorem test_meets_OperationsWriteOnlyTheirRegisters :
    runs (exec (.hash 5) ⟨64, engine .idle 0 0 hello⟩) = true ∧ runs (exec .init ⟨64, engine .start 5 0 hello⟩) = true ∧
    runs (exec .abs1 ⟨64, engine .absorb 16 0 (pattern 16)⟩) = true ∧
    runs (exec .abs2 ⟨64, engine .absorb 32 0 (pattern 32)⟩) = true ∧
    runs (exec (.abss 5#4) ⟨64, engine .absorb 5 0 hello⟩) = true ∧ runs (exec .fold ⟨64, engine .absorb 5 5 hello⟩) = true := by
  decide +kernel
/-- Section 3.4: 32, 31, 16, 15, 1 and 0 bytes left. -/
theorem test_meets_SequencerChoosesByRemainder : (engine .start 5 0 hello).phase = .start ∧
    ∀ c ∈ [(32, 0, Instr.abs2), (63, 16, .abs2), (31, 0, .abs1), (48, 32, .abs1), (31, 16, .abss 15#4), (49, 48, .abss 1#4), (0, 0, .fold),
      (32, 32, .fold)],
      (engine .absorb c.1 c.2.1 []).phase = .absorb ∧
      (engine .absorb c.1 c.2.1 []).handled.toNat ≤ (engine .absorb c.1 c.2.1 []).len.toNat ∧
      (fetch (engine .absorb c.1 c.2.1 [])).bind decode = some c.2.2 := by decide +kernel

/-- The engine with a host that has no move, pauses, or waits for a response that is not there. -/
theorem test_meets_StepRunsTheDecodedInstruction :
    fetch (engine .absorb 5 0 hello) = some (.mop 0x35#8) ∧ decode (Wire.mop (lenw := 64) 0x35#8) = some (.abss 5#4) ∧
    fetch (offered hello 0x0501#72 []) = some (.rq 0x0501#72) ∧ decode (Wire.rq (lenw := 64) 0x0501#72) = some (.hash 5) ∧
    (offered hello 0x0501#72 []).host = [] ∧ (offered hello 0x0501#72 [.pause]).host = .pause :: [] ∧
    (offered hello 0x0501#72 [.take]).host = .take :: [] ∧ moveEnabled (offered hello 0x0501#72 [.take]) .take = false := by
  decide +kernel
/-- The three outcomes, `len = BUFSIZE` and `len = BUFSIZE + 1` among them, for a host that has no move, pauses, or waits. -/
theorem test_meets_AcceptanceOfARequestWord : (offered hello 0x0501#72 []).HostWaits ∧
    (offered hello 0x0502#72 [.pause]).HostWaits ∧ (offered hello 0x0502#72 [.take]).HostWaits ∧
    (offered hello 0x0502#72 [.take]).phase = .idle ∧
    [([], 0x0501#72), ([], 0x0601#72), ([.pause], 0x0502#72), ([.take], 0x0502#72), ([.pause], 0x0501#72)].map
        (fun c => registers (step ⟨64, offered hello c.2 c.1⟩)) =
      [some ⟨0, 0, 5, 0, .start, 0⟩, some ⟨0, 0, 0, 0, .done, 1⟩, some ⟨0, 0, 0, 0, .done, 2⟩, some ⟨0, 0, 0, 0, .done, 2⟩,
        some ⟨0, 0, 5, 0, .start, 0⟩] :=
  ⟨.inl rfl, .inr (.inl ⟨[], rfl⟩), .inr (.inr ⟨.take, [], rfl, rfl⟩), rfl, by decide +kernel⟩
theorem test_meets_RequestWaitsWhileBusy :
    (engine .absorb 5 0 hello).phase ≠ .idle ∧
    (nextOf (step ⟨64, { engine .absorb 5 0 hello with rq := some 0x0501#72 }⟩)).isSome = true ∧
    (nextOf (step ⟨64, { holding 0 0 [.take] with rq := some 0x0501#72 }⟩)).isSome = true := by decide +kernel
theorem test_meets_TakingTheResponseEndsTheCall : (holding 7 0 [.take]).phase = .done ∧
    (holding 7 0 [.take]).host = .take :: [] := by decide +kernel
theorem test_meets_ResponseStaysOffered : runs (step ⟨64, holding 7 0 [.pause, .take]⟩) = true ∧
    runs (step ⟨64, holding 7 0 [.offer 0x0501#72, .take]⟩) = true ∧ runs (step ⟨64, holding 7 0 [.write 0 1]⟩) = true := by
  decide +kernel
theorem test_meets_ResetAbandonsTheCall : ({ engine .absorb 5 0 hello with host := [.reset] } : Engine 64).host = .reset :: [] ∧
    ({ engine .idle 5 0 hello with host := [.reset] } : Engine 64).host = .reset :: [] := ⟨rfl, rfl⟩
/-- An offer in ABSORB, a new buffer in IDLE, a write inside and at BUFSIZE in ABSORB. -/
theorem test_meets_HostMovesTouchNoRegister :
    moveEnabled (engine .absorb 5 0 hello) (.offer 0x0501#72) = true ∧
    moveEnabled (engine .idle 5 0 hello) (.present helloWorld 11) = true ∧
    moveEnabled (engine .absorb 5 0 hello) (.write 4 0x21) = true ∧ moveEnabled (engine .absorb 5 0 hello) (.write 5 0x21) = true ∧
    Memory.wf (engine .absorb 5 0 hello).buf = true ∧
    (nextOf (step ⟨64, { engine .absorb 5 0 hello with host := [.write 4 0x21] }⟩)).map (fun t => memByte t.eng.buf 4) = some (some 0x21) ∧
    (nextOf (step ⟨64, { engine .absorb 5 0 hello with host := [.write 5 0x21] }⟩)).map (fun t => memByte t.eng.buf 5) = some none := by
  decide +kernel
/-- Each transition once: IDLE to START and to DONE, START to ABSORB, ABSORB to DONE, DONE to IDLE, and reset. -/
theorem test_meets_PhaseMovesAlongItsTransitions :
    [step ⟨64, offered hello 0x0501#72 []⟩, step ⟨64, offered hello 0x0601#72 []⟩, step ⟨64, engine .start 5 0 hello⟩,
      step ⟨64, engine .absorb 5 5 hello⟩, step ⟨64, holding 7 0 [.take]⟩,
      step ⟨64, { engine .absorb 5 0 hello with host := [.reset] }⟩].map (fun r => (nextOf r).map fun t => t.eng.phase)
      = [some .start, some .done, some .absorb, some .done, some .idle, some .idle] := by decide +kernel
theorem test_meets_LenIsConstantDuringACall : registers (step ⟨64, engine .absorb 5 0 hello⟩) =
    some ⟨0x53546e821a6e755301e305c1e36b1415, 5, 5, 0, .absorb, 0⟩ := by decide +kernel
theorem test_meets_ConfigurationIsFixed : runs (step ⟨64, engine .absorb 5 0 hello⟩) = true := by decide +kernel

/-! ### Witnesses that need the invariant -/

/-- An engine that has read nothing yet meets the invariant, in each phase of a call. -/
theorem inv_engine (n : Nat) (bytes : List Byte) (hb : bytes.length < 2 ^ 64) (hn : n ≤ bytes.length) :
    State.Inv ⟨64, engine .idle n 0 bytes⟩ ∧ State.Inv ⟨64, engine .start n 0 bytes⟩ ∧ State.Inv ⟨64, engine .absorb n 0 bytes⟩ := by
  have h6 : 6 ≤ 64 := by decide
  have hw : Memory.wf (memOf 0 bytes) = true := memOf_wf bytes
  have hs : (BitVec.ofNat 64 bytes.length).toNat = bytes.length := by rw [BitVec.toNat_ofNat]; exact Nat.mod_eq_of_lt hb
  have hl : (BitVec.ofNat 64 n).toNat = n := by rw [BitVec.toNat_ofNat]; exact Nat.mod_eq_of_lt (by omega)
  have hm : memBelow (BitVec.ofNat 64 bytes.length).toNat (memOf 0 bytes) = true := by
    rw [hs]; have := memBelow_memOf 0 bytes; rwa [Nat.zero_add] at this
  have hle : (BitVec.ofNat 64 n).toNat ≤ (BitVec.ofNat 64 bytes.length).toNat := by rw [hl, hs]; exact hn
  refine ⟨⟨h6, hw, hm, ?_, ?_⟩, ⟨h6, hw, hm, ?_, ?_⟩, ⟨h6, hw, hm, ?_, ?_⟩⟩ <;>
    simp only [Engine.CallOk, engine, List.not_mem_nil, false_imp_iff, implies_true, true_and]
  · exact ⟨hle, trivial⟩
  · exact ⟨hle, by simp, .inl rfl, rfl, rfl⟩

/-- A step of the machine, the host's and the engine's, from a state of the invariant. -/
theorem test_meets_StepKeepsTheInvariant : State.Inv ⟨64, engine .absorb 5 0 hello⟩ ∧
    runs (step ⟨64, engine .absorb 5 0 hello⟩) = true := ⟨(inv_engine 5 hello (by decide) (by decide)).2.2, by decide +kernel⟩
theorem test_meets_EveryReadIsBelowLenAndAligned : State.Inv ⟨64, engine .absorb 32 0 (pattern 48)⟩ ∧
    (nextOf (step ⟨64, engine .absorb 32 0 (pattern 48)⟩)).map (fun t => t.eng.reads.map ReadEvent.off) = some [0, 16] :=
  ⟨(inv_engine 32 (pattern 48) (by decide) (by decide)).2.2, by decide +kernel⟩
theorem test_meets_BusyEngineMakesProgress : State.Inv ⟨64, engine .start 5 0 hello⟩ ∧ State.Inv ⟨64, engine .absorb 5 0 hello⟩ ∧
    (engine .start 5 0 hello).PortAnswers ∧ (engine .absorb 5 0 hello).PortAnswers ∧ (engine .absorb 5 0 hello).host = [] :=
  ⟨(inv_engine 5 hello (by decide) (by decide)).2.1, (inv_engine 5 hello (by decide) (by decide)).2.2,
    portAnswers_engine.2.2.2.1, portAnswers_engine.2.2.1, rfl⟩
/-- The engine in ABSORB with nothing read, a port that answers only the first `k` of its bytes, and a host that waits for a
response that is not there. -/
def silentFrom (k n : Nat) (bytes : List Byte) : Engine 64 :=
  { engine .absorb n 0 bytes with buf := memOf 0 (bytes.take k), host := [.take] }

theorem inv_silentFrom (k n : Nat) (bytes : List Byte) (hb : bytes.length < 2 ^ 64) (hn : n ≤ bytes.length) :
    State.Inv ⟨64, silentFrom k n bytes⟩ := by
  have h := (inv_engine n bytes hb hn).2.2
  refine ⟨h.lenw_ge, memOf_wf _, ?_, h.call, h.runs_sound⟩
  have hs : (BitVec.ofNat 64 bytes.length).toNat = bytes.length := by rw [BitVec.toNat_ofNat]; exact Nat.mod_eq_of_lt hb
  have hm := memBelow_memOf 0 (bytes.take k)
  refine memBelow_mono (n := 0 + (bytes.take k).length) ?_ hm
  simp only [silentFrom, engine, hs, List.length_take]
  omega

/-- ABSS 5 without its last byte, ABS1 without its last, ABS2 without its first and without the first and the last of its
second block. -/
theorem test_meets_SilentPortLeavesTheEngineStuck :
    (State.Inv ⟨64, silentFrom 4 5 hello⟩ ∧ State.Inv ⟨64, silentFrom 15 16 (pattern 16)⟩ ∧
      State.Inv ⟨64, silentFrom 0 32 (pattern 32)⟩ ∧ State.Inv ⟨64, silentFrom 16 32 (pattern 32)⟩ ∧
      State.Inv ⟨64, silentFrom 31 32 (pattern 32)⟩) ∧
    (silentFrom 4 5 hello).HostWaits ∧
    ∀ c ∈ [(silentFrom 4 5 hello, Instr.abss 5#4, 4), (silentFrom 15 16 (pattern 16), .abs1, 15),
        (silentFrom 0 32 (pattern 32), .abs2, 0), (silentFrom 16 32 (pattern 32), .abs2, 16),
        (silentFrom 31 32 (pattern 32), .abs2, 31)],
      c.1.phase = .absorb ∧ (fetch c.1).bind decode = some c.2.1 ∧ c.1.handled.toNat ≤ c.2.2 ∧ memByte c.1.buf c.2.2 = none ∧
      stopOf (step ⟨64, c.1⟩) = some (.inl .portSilent) :=
  ⟨⟨inv_silentFrom _ _ _ (by decide) (by decide), inv_silentFrom _ _ _ (by decide) (by decide),
      inv_silentFrom _ _ _ (by decide) (by decide), inv_silentFrom _ _ _ (by decide) (by decide),
      inv_silentFrom _ _ _ (by decide) (by decide)⟩,
    .inr (.inr ⟨.take, [], rfl, rfl⟩), by decide +kernel⟩
/-- Also for the second half, the named stops: a state of the invariant that stops, and one that runs. -/
theorem test_meets_OnlyTheOutsideCanStopTheMachine : State.Inv ⟨64, engine .idle 0 0 hello⟩ ∧
    stopOf (step ⟨64, engine .idle 0 0 hello⟩) = some (.inl .noEnabledStep) ∧ runs (step ⟨64, engine .start 5 0 hello⟩) = true :=
  ⟨(inv_engine 0 hello (by decide) (by decide)).1, by decide +kernel, by decide +kernel⟩
theorem test_meets_StandsStillExactlyWhenIdleOrHolding : stopOf (step ⟨64, holding 7 0 []⟩) = some (.inl .noEnabledStep) ∧
    stopOf (step ⟨64, holding 7 0 [.present hello 5]⟩) = some (.inl .noEnabledStep) ∧
    stopOf (step ⟨64, engine .idle 0 0 hello⟩) = some (.inl .noEnabledStep) := by decide +kernel

/-! ### Witnesses of the whole calls -/

theorem test_meets_EmptyInputHashesToZero : (offered [] (encodeHash 0) []).phase = .idle ∧
    (offered [] (encodeHash 0) []).rq = some 0x01#72 ∧ (offered [] (encodeHash 0) []).bufsize = 0 := by decide +kernel
theorem test_meets_CallExecutesItsStream : (engine .start 49 0 (pattern 49)).phase = .start ∧
    (engine .start 49 0 (pattern 49)).len.toNat ≤ (engine .start 49 0 (pattern 49)).bufsize.toNat ∧
    (engine .start 49 0 (pattern 49)).PortAnswers := ⟨rfl, by decide +kernel, portAnswers_engine.2.1⟩
/-- P1: the whole buffer is the input. -/
theorem test_meets_AcceptedCallAnswersHash : (offered hello (encodeHash 5) [.take]).phase = .idle ∧
    (offered hello (encodeHash 5) [.take]).rq = some (encodeHash 5) ∧ (offered hello (encodeHash 5) [.take]).reads = [] ∧
    (5 : BitVec 64).toNat ≤ (offered hello (encodeHash 5) [.take]).bufsize.toNat ∧
    (offered hello (encodeHash 5) [.take]).PortAnswers ∧
    memBytes (offered hello (encodeHash 5) [.take]).buf 0 (5 : BitVec 64).toNat = some hello :=
  ⟨rfl, rfl, rfl, by decide +kernel, portAnswers_engine.2.2.1, by decide +kernel⟩
/-- A state of the invariant, and a step that emits a response with code 0. -/
theorem test_meets_EveryDigestIsHashOfTheBytesRead :
    State.Inv ⟨64, { holding 0 0 [.take] with len := 0 }⟩ ∧
    (nextOf (Host.Core.run core 1 ⟨64, { holding 0 0 [.take] with len := 0 }⟩)).map (fun t => t.eng.runs.map Run.response) =
      some [some 0#72] := by
  refine ⟨?_, by decide +kernel⟩
  have h := (inv_engine 5 hello (by decide) (by decide)).2.2
  refine ⟨h.lenw_ge, h.buf_wf, h.buf_below, ?_, h.runs_sound⟩
  simp only [Engine.CallOk, holding, engine]
  exact .inl ⟨rfl, by simp, rfl, by simp [hashOf, foldBlock]⟩
/-- V-H14: five bytes of "hello world", and "hello" alone, over other register values. -/
theorem test_meets_ResponseDependsOnlyOnTheInput :
    (5 : BitVec 64).toNat ≤ (offered helloWorld (encodeHash 5) [.take]).bufsize.toNat ∧
    (5 : BitVec 64).toNat ≤ ({ offered hello (encodeHash 5) [.take] with h := 1, digest := 2 } : Engine 64).bufsize.toNat ∧
    (offered helloWorld (encodeHash 5) [.take]).PortAnswers ∧ (offered hello (encodeHash 5) [.take]).PortAnswers ∧
    ∀ off, off < (5 : BitVec 64).toNat → memByte (memOf 0 helloWorld) off = memByte (memOf 0 hello) off := by
  unfold Engine.PortAnswers
  decide +kernel
/-- One zero byte after 2, and 15 after 1, which fill the block. -/
theorem test_meets_ZeroExtendedShortBlockCollides : [(0x61 : Byte), 0x62].length % 16 ≠ 0 ∧ [(0x61 : Byte), 0x62].length % 16 + 1 ≤ 16 ∧
    [(0x61 : Byte)].length % 16 + 15 ≤ 16 := by decide
theorem test_meets_HashDependsOnTheBlocksAlone : 2 ≤ [(0x61 : Byte), 0x62].length ∧ 3 ≤ [(0x61 : Byte), 0x62, 0].length ∧
    (2 + 15) / 16 = (3 + 15) / 16 ∧
    ∀ i, i < (2 + 15) / 16 → blockAt ([(0x61 : Byte), 0x62].take 2) i = blockAt ([(0x61 : Byte), 0x62, 0].take 3) i := by
  decide +kernel
theorem test_meets_BytesFromLenOnAreNeverRead : State.Inv ⟨64, engine .absorb 5 0 helloWorld⟩ ∧
    (∀ off, off < (engine .absorb 5 0 helloWorld).len.toNat → memByte (memOf 0 hello) off = memByte (memOf 0 helloWorld) off) ∧
    runs (step ⟨64, engine .absorb 5 0 helloWorld⟩) = true :=
  ⟨(inv_engine 5 helloWorld (by decide) (by decide)).2.2, by decide +kernel, by decide +kernel⟩
/-- Engine 1 takes its FOLD beside engine 0 in START, and then engine 0 its INIT. -/
theorem test_meets_EnginesAreIndependent :
    (match stepAt 1 [⟨64, engine .start 5 0 hello⟩, ⟨64, engine .absorb 5 5 hello⟩] with
      | .next l => l.map (fun s => s.eng.phase) == [.start, .done] && (match stepAt 0 l with
        | .next l => l.map (fun s => s.eng.phase) == [.absorb, .done]
        | _ => false)
      | _ => false) = true := by decide +kernel

end Sys2Proof.Tests
end

namespace Sys2Proof.Machine

/-! ### Pack and zero padding (20_memory.md R44) -/

/-- Padding with zeros is invisible to a lookup whose default is zero. -/
theorem getD_append_replicate_zero (bs : List Byte) (n j : Nat) :
    (bs ++ List.replicate n 0).getD j 0 = bs.getD j 0 := by
  rcases Nat.lt_or_ge j bs.length with inside | beyond
  · exact List.getD_append bs _ 0 j inside
  · rw [List.getD_append_right bs _ 0 j beyond, List.getD_eq_default bs 0 beyond, List.getD_eq_getElem?_getD,
      List.getElem?_getD_replicate_default_eq]

/-- No bound on the length is needed: a byte at offset 16 or beyond is shifted out of the block. -/
@[simp] theorem pack_append_replicate_zero (bs : List Byte) (n : Nat) : pack (bs ++ List.replicate n 0) = pack bs :=
  block_ext fun j hj => by rw [byteOf_pack _ j hj, byteOf_pack _ j hj, getD_append_replicate_zero]

/-- Settles O7: both clauses are read off the bytes of a packed block, and the worked example is evaluated. -/
theorem packPlacesBytesInOffsetOrder : Obligations.PackPlacesBytesInOffsetOrder := by
  refine ⟨fun bs _ _ j hj => ?_, fun bs s _ _ _ => pack_append_replicate_zero bs _, by decide⟩
  rw [byteOf_pack bs j hj]
  split
  case isTrue => rfl
  case isFalse beyond => exact List.getD_eq_default bs 0 (Nat.le_of_not_lt beyond)

end Sys2Proof.Machine

namespace Sys2Proof.Machine

/-! ### The matrix view of a block (40_compress.md R82) -/

theorem byteOf_eq_cell (x : Block) (j : Nat) : byteOf x j = cell x (j % 4) (j / 4) := by
  rw [cell, Nat.mod_add_div]

/-- Two blocks with the same 4-by-4 matrix are the same block. -/
theorem cell_ext {x y : Block} (h : ∀ r c, r < 4 → c < 4 → cell x r c = cell y r c) : x = y :=
  block_ext fun j hj => by
    rw [byteOf_eq_cell x, byteOf_eq_cell y]
    exact h _ _ (Nat.mod_lt j (by decide)) (by omega)

/-! ### SubBytes and its table (40_compress.md R83) -/

theorem cell_subBytes (x : Block) (r c : Nat) (hr : r < 4) (hc : c < 4) : cell (subBytes x) r c = sbox (cell x r c) :=
  cell_ofCells _ r c hr hc

theorem byteOf_subBytes (x : Block) (j : Nat) (hj : j < 16) : byteOf (subBytes x) j = sbox (byteOf x j) := by
  rw [byteOf_eq_cell x, subBytes, byteOf_ofCells _ j hj]

/-- The affine map of the S-box undone. -/
def sboxAffineInv (b : Byte) : Byte := b.rotateLeft 1 ^^^ b.rotateLeft 3 ^^^ b.rotateLeft 6 ^^^ 0x05#8

theorem sboxAffine_sboxAffineInv : Function.RightInverse sboxAffineInv sboxAffine := by
  unfold Function.RightInverse Function.LeftInverse
  decide +kernel

/-- The inverse of a byte in GF(2^8), with 0 for 0: the byte whose affine image stands in the table at `a`.  That it is
the field inverse is `gfMul_gfInv`. -/
def gfInv (a : Byte) : Byte := sboxAffineInv (sbox a)

theorem sbox_eq_sboxAffine_gfInv (a : Byte) : sbox a = sboxAffine (gfInv a) := (sboxAffine_sboxAffineInv (sbox a)).symm

theorem gfInv_zero : gfInv 0 = 0 := by decide

/-- The arithmetic definition of the S-box asks this of every unit; a field has no other inverse. -/
theorem gfMul_gfInv : ∀ a : Byte, a ≠ 0 → gfMul a (gfInv a) = 1 := by decide +kernel

theorem gfInv_involutive : Function.Involutive gfInv := by
  unfold Function.Involutive
  decide +kernel

/-- Both stages of the S-box are onto, and the bytes are finitely many. -/
theorem sbox_bijective : Function.Bijective sbox := by
  have stages : sbox = sboxAffine ∘ gfInv := funext sbox_eq_sboxAffine_gfInv
  rw [← Finite.surjective_iff_bijective, stages]
  exact sboxAffine_sboxAffineInv.surjective.comp gfInv_involutive.surjective

theorem sbox_ne_self : ∀ a : Byte, sbox a ≠ a := by decide +kernel

/-- Settles O8: the table is the affine map after the field inverse, from which it is a bijection; the check values are
entries of the table. -/
theorem subBytesIsTheArithmeticSbox : Obligations.SubBytesIsTheArithmeticSbox := by
  refine ⟨byteOf_subBytes, fun a => ⟨gfInv a, ?_, gfMul_gfInv a, sbox_eq_sboxAffine_gfInv a⟩,
    rfl, rfl, rfl, rfl, rfl, sbox_bijective, sbox_ne_self⟩
  rintro rfl
  exact gfInv_zero

/-! ### ShiftRows (40_compress.md R84) -/

theorem cell_shiftRows (x : Block) (r c : Nat) (hr : r < 4) (hc : c < 4) :
    cell (shiftRows x) r c = cell x r ((c + r) % 4) :=
  cell_ofCells _ r c hr hc

/-- The index list SR is the rotation of the rows, written on byte positions. -/
theorem byteOf_shiftRows (x : Block) (j : Nat) (hj : j < 16) :
    byteOf (shiftRows x) j = byteOf x ([0, 5, 10, 15, 4, 9, 14, 3, 8, 13, 2, 7, 12, 1, 6, 11].getD j 0) := by
  have positions : ∀ j < 16, [0, 5, 10, 15, 4, 9, 14, 3, 8, 13, 2, 7, 12, 1, 6, 11].getD j 0
      = j % 4 + 4 * ((j / 4 + j % 4) % 4) := by decide
  rw [positions j hj, shiftRows, byteOf_ofCells _ j hj, cell]

theorem shiftRows_subBytes (x : Block) : shiftRows (subBytes x) = subBytes (shiftRows x) := by
  refine cell_ext fun r c hr hc => ?_
  rw [cell_shiftRows _ r c hr hc, cell_subBytes _ r _ hr (Nat.mod_lt _ (by decide)),
    cell_subBytes _ r c hr hc, cell_shiftRows _ r c hr hc]

/-- Four rotations bring each row back to where it was. -/
theorem shiftRows_four_times (x : Block) : shiftRows (shiftRows (shiftRows (shiftRows x))) = x := by
  refine cell_ext fun r c hr hc => ?_
  have back : ((((c + r) % 4 + r) % 4 + r) % 4 + r) % 4 = c := by omega
  have lt4 (n : Nat) : n % 4 < 4 := Nat.mod_lt n (by decide)
  rw [cell_shiftRows _ r c hr hc, cell_shiftRows _ r _ hr (lt4 _), cell_shiftRows _ r _ hr (lt4 _),
    cell_shiftRows _ r _ hr (lt4 _), back]

theorem shiftRows_bijective : Function.Bijective shiftRows :=
  Function.bijective_iff_has_inverse.2 ⟨shiftRows^[3], shiftRows_four_times, shiftRows_four_times⟩

/-- Settles O9: both forms are read off the matrix, and the inverse is the rotation done three times more. -/
theorem shiftRowsRotatesRows : Obligations.ShiftRowsRotatesRows :=
  ⟨cell_shiftRows, byteOf_shiftRows, shiftRows_subBytes, shiftRows_bijective, by decide +kernel⟩

/-! ### MixColumns (40_compress.md R85) -/

theorem gfMul_two : ∀ a : Byte, gfMul 2 a = xtime a := by decide +kernel

theorem gfMul_three : ∀ a : Byte, gfMul 3 a = times3 a := by decide +kernel

theorem cell_mixColumns (x : Block) (r c : Nat) (hr : r < 4) (hc : c < 4) :
    cell (mixColumns x) r c = mixRow (cell x 0 c) (cell x 1 c) (cell x 2 c) (cell x 3 c) r :=
  cell_ofCells _ r c hr hc

/-- The coefficients 1, 1, 2 and 3 of every row add up to 1 in the field. -/
theorem mixRow_equal_bytes (v : Byte) (r : Nat) : mixRow v v v v r = v := by
  have cancel (w : Byte) : w ^^^ (w ^^^ v) = v := by rw [← BitVec.xor_assoc, BitVec.xor_self, BitVec.zero_xor]
  match r with
  | 0 => simp [mixRow, times3, cancel]
  | 1 => simp [mixRow, times3, cancel, BitVec.xor_assoc]
  | 2 => simp [mixRow, times3, cancel]
  | _ + 3 => simp [mixRow, times3]

/-- Settles O10: the formulas are the rows of `mixRow` with its doublings written as products. -/
theorem mixColumnsOnEachColumn : Obligations.MixColumnsOnEachColumn := by
  refine ⟨fun x c hc => ?_, fun a => ?_, by decide +kernel, fun v r _ => mixRow_equal_bytes v r⟩
  · simp only [gfMul_two, gfMul_three]
    exact ⟨cell_mixColumns x 0 c (by decide) hc, cell_mixColumns x 1 c (by decide) hc,
      cell_mixColumns x 2 c (by decide) hc, cell_mixColumns x 3 c (by decide) hc⟩
  · rw [gfMul_three, gfMul_two]
    exact ⟨rfl, rfl⟩

/-! ### The default rounds and Compress (40_compress.md R80, R86 to R89) -/

theorem round1_aes (x k : Block) : round1 .aes x k = mixColumns (shiftRows (subBytes x)) ^^^ k := rfl

theorem round2_aes (x k : Block) : round2 .aes x k = shiftRows (subBytes x) ^^^ k := rfl

theorem compress_eq_rounds (c : Cipher) (m k : Block) : compress c m k = round2 c (round1 c (m ^^^ k) k) k := rfl

theorem compress_aes (m k : Block) : compress .aes m k =
    shiftRows (subBytes (mixColumns (shiftRows (subBytes (m ^^^ k))) ^^^ k)) ^^^ k := by
  rw [compress_eq_rounds, round2_aes, round1_aes]

/-- Settles O11: the rounds are their layers by definition, the other order by `shiftRows_subBytes`. -/
theorem aesRoundsAreTheirLayers : Obligations.AesRoundsAreTheirLayers := by
  refine ⟨fun _ _ => rfl, fun x k => ⟨round1_aes x k, ?_⟩, round2_aes, by decide +kernel, by decide +kernel,
    by decide +kernel, by decide +kernel⟩
  rw [round1_aes, shiftRows_subBytes]

/-- Settles O12: the equations of the rounds, and the evaluated vectors. -/
theorem compressIsTwoRoundsUnderOneKey : Obligations.CompressIsTwoRoundsUnderOneKey :=
  ⟨compress_eq_rounds, compress_aes, by decide +kernel, by decide +kernel, by decide +kernel, by decide +kernel,
    by decide +kernel, by decide +kernel⟩

end Sys2Proof.Machine

namespace Sys2Proof.Machine

section

variable {w : Nat} {y : Engine w}

/-! ### Each micro-operation on an engine whose port answers (41_iteration.md R100 to R103) -/

theorem exec_init (hp : y.phase = .start) :
    exec .init ⟨w, y⟩ = .next ⟨w, { y with h := 0, handled := 0, phase := .absorb }⟩ :=
  exec_eq_next.2 ⟨_, rfl, initOp_eq_next.2 ⟨hp, rfl⟩⟩

theorem exec_fold (hp : y.phase = .absorb) (hl : y.handled = y.len) :
    exec .fold ⟨w, y⟩ = .next ⟨w, { y with digest := foldBlock y.h, phase := .done }⟩ :=
  exec_eq_next.2 ⟨_, rfl, foldOp_eq_next.2 ⟨hp, hl, rfl⟩⟩

theorem exec_abs1 (hp : y.phase = .absorb) (hr : y.handled.toNat + 16 ≤ y.len.toNat)
    (hl : y.len.toNat ≤ y.bufsize.toNat) (port : y.PortAnswers) :
    ∃ b, memBytes y.buf y.handled.toNat 16 = some b ∧ exec .abs1 ⟨w, y⟩ = .next ⟨w, absorbed 16 b y⟩ := by
  obtain ⟨b, hb, -, read⟩ := memRead_of_portAnswers port (n := 16) (by decide) le_rfl (hr.trans hl)
  have rem : 16 ≤ (remaining y.len y.handled).toNat := by rw [remaining_toNat (by omega)]; omega
  exact ⟨b, hb, exec_eq_next.2 ⟨_, rfl, abs1Op_eq_next.2 ⟨hp, rem, b, read, rfl⟩⟩⟩

theorem exec_abs2 (hp : y.phase = .absorb) (hr : y.handled.toNat + 32 ≤ y.len.toNat)
    (hl : y.len.toNat ≤ y.bufsize.toNat) (port : y.PortAnswers) :
    ∃ b d, memBytes y.buf y.handled.toNat 16 = some b ∧ memBytes y.buf (y.handled.toNat + 16) 16 = some d ∧
      exec .abs2 ⟨w, y⟩ = .next ⟨w, absorbed 16 d (absorbed 16 b y)⟩ := by
  obtain ⟨b, hb, -, readb⟩ := memRead_of_portAnswers port (off := y.handled.toNat) (n := 16) (by decide) le_rfl (by omega)
  obtain ⟨d, hd, -, readd⟩ :=
    memRead_of_portAnswers port (off := y.handled.toNat + 16) (n := 16) (by decide) le_rfl (by omega)
  have rem : 32 ≤ (remaining y.len y.handled).toNat := by rw [remaining_toNat (by omega)]; omega
  rw [← advance_toNat (len := y.len) (by omega)] at readd
  exact ⟨b, d, hb, hd, exec_eq_next.2 ⟨_, rfl, abs2Op_eq_next.2 ⟨hp, rem, b, d, readb, readd, rfl⟩⟩⟩

theorem exec_abss {r : BitVec 4} (hp : y.phase = .absorb) (h0 : r ≠ 0#4)
    (hr : y.handled.toNat + r.toNat = y.len.toNat) (hl : y.len.toNat ≤ y.bufsize.toNat) (port : y.PortAnswers) :
    ∃ b, memBytes y.buf y.handled.toNat r.toNat = some b ∧
      exec (.abss r) ⟨w, y⟩ = .next ⟨w, absorbed r.toNat b y⟩ := by
  have pos : 1 ≤ r.toNat := Nat.pos_of_ne_zero fun h => h0 (BitVec.eq_of_toNat_eq h)
  obtain ⟨b, hb, -, read⟩ := memRead_of_portAnswers port pos r.isLt.le (hr.trans_le hl)
  have rem : (remaining y.len y.handled).toNat = r.toNat := by rw [remaining_toNat (by omega)]; omega
  exact ⟨b, hb, exec_eq_next.2 ⟨_, rfl, abssOp_eq_next.2 ⟨hp, h0, rem, b, read, rfl⟩⟩⟩

/-- Where nothing is left behind the block, HANDLED has become LEN. -/
theorem advance_eq_len {len handled : BitVec w} {n : Nat} (h : handled.toNat + n = len.toNat) :
    advance handled n = len :=
  BitVec.eq_of_toNat_eq ((advance_toNat h.le).trans h)

end

/-- Settles O20: the equation of INIT. -/
theorem initClearsStateAndCounter : Obligations.InitClearsStateAndCounter :=
  fun _ _ hp => ⟨exec_init hp, rfl⟩

/-- Settles O21: `exec_abs1` with the record of the absorbed block written out. -/
theorem absOneAbsorbsOneBlock : Obligations.AbsOneAbsorbsOneBlock := by
  refine ⟨by decide, by decide +kernel, fun w y hp hr hl port => ?_⟩
  obtain ⟨b, hb, run⟩ := exec_abs1 hp hr hl port
  obtain ⟨len, bytes⟩ := memBytes_eq_some.1 hb
  exact ⟨b, len, bytes, advance y.handled 16, advance_toNat hr, run⟩

/-- Settles O22: `exec_abs2`, the two advances of HANDLED being one by 32. -/
theorem absTwoAbsorbsTwoBlocks : Obligations.AbsTwoAbsorbsTwoBlocks := by
  refine ⟨by decide, by decide +kernel, fun w y hp hr hl port => ?_⟩
  obtain ⟨b, d, hb, hd, run⟩ := exec_abs2 hp hr hl port
  obtain ⟨lenb, bytesb⟩ := memBytes_eq_some.1 hb
  obtain ⟨lend, bytesd⟩ := memBytes_eq_some.1 hd
  have second : (advance y.handled 16).toNat = y.handled.toNat + 16 := advance_toNat (len := y.len) (by omega)
  refine ⟨b, d, lenb, lend, bytesb, bytesd, advance y.handled 32, advance_toNat hr, run.trans ?_⟩
  simp [absorbed, advance_advance, second]

/-- Settles O23: `exec_abss`, HANDLED having become LEN. -/
theorem absShortAbsorbsTheRest : Obligations.AbsShortAbsorbsTheRest := by
  refine ⟨by decide, by decide, by decide +kernel, fun w y r hp h0 hr hl port => ?_⟩
  obtain ⟨b, hb, run⟩ := exec_abss hp h0 hr hl port
  obtain ⟨len, bytes⟩ := memBytes_eq_some.1 hb
  rw [absorbed, advance_eq_len hr] at run
  exact ⟨b, len, bytes, run⟩

section

variable {w : Nat} {y : Engine w}

/-! ### ABS2 as two blocks, whatever the port answers (41_iteration.md R105) -/

/-- Of the machine that is lifted from, only LENW matters. -/
theorem lift_eq_lift (y z : Engine w) (r : Result (Engine w)) : State.lift ⟨w, y⟩ r = State.lift ⟨w, z⟩ r := by
  cases r <;> rfl

theorem exec_abs1_eq_absorb (hp : y.phase = .absorb) (hr : 16 ≤ (remaining y.len y.handled).toNat) :
    exec .abs1 ⟨w, y⟩ = State.lift ⟨w, y⟩ (absorb 16 y) := by
  simp [exec, execAbs1, abs1Op, hp, hr]

theorem absorb_of_read {n : Nat} {b : List Byte} (h : memRead y y.handled.toNat n = .ok b) :
    absorb n y = .next (absorbed n b y) := by
  simp [absorb, h]

theorem absorb_of_stuck {n : Nat} {f : Fault} (h : memRead y y.handled.toNat n = .error f) : absorb n y = .fault f := by
  simp [absorb, h]

theorem abs2Op_eq_absorb_twice (hp : y.phase = .absorb) (hr : 32 ≤ (remaining y.len y.handled).toNat) :
    abs2Op y = andThen (absorb 16 y) (absorb 16) := by
  cases first : memRead y y.handled.toNat 16 with
  | error f => simp [abs2Op, hp, hr, first, absorb_of_stuck first]
  | ok b =>
    rw [absorb_of_read first, andThen_next]
    cases second : memRead (absorbed 16 b y) (absorbed 16 b y).handled.toNat 16 with
    | error f =>
      rw [absorb_of_stuck second]
      rw [memRead_absorbed, absorbed_handled] at second
      simp [abs2Op, hp, hr, first, second]
    | ok d =>
      rw [absorb_of_read second]
      rw [memRead_absorbed, absorbed_handled] at second
      exact abs2Op_eq_next.2 ⟨hp, hr, b, d, first, second, rfl⟩

/-- Taking a block off a remainder that holds it does not wrap, also where HANDLED itself wraps. -/
theorem remaining_advance_toNat {len handled : BitVec w} {n : Nat} (h : n ≤ (remaining len handled).toNat) :
    (remaining len (advance handled n)).toNat = (remaining len handled).toNat - n := by
  have hn : (BitVec.ofNat w n).toNat = n := Nat.mod_eq_of_lt (h.trans_lt (BitVec.isLt _))
  rw [remaining_advance, BitVec.toNat_sub_of_le (BitVec.le_def.2 (hn.trans_le h)), hn]

/-- With two blocks left, absorbing one leaves one. -/
theorem block_left_after_first {b : List Byte} (h : 32 ≤ (remaining y.len y.handled).toNat) :
    16 ≤ (remaining (absorbed 16 b y).len (absorbed 16 b y).handled).toNat := by
  rw [absorbed_len, absorbed_handled, remaining_advance_toNat (by omega)]
  omega

end

/-- Settles O25: after the first block 16 bytes are still left, so the second ABS1 absorbs at the advanced HANDLED. -/
theorem absTwoIsAbsOneTwice : Obligations.AbsTwoIsAbsOneTwice := by
  intro w y hp hr
  rw [exec_abs1_eq_absorb hp (by omega), exec, execAbs2, abs2Op_eq_absorb_twice hp hr]
  cases first : absorb 16 y with
  | fault f => rfl
  | refused r => rfl
  | next z =>
    obtain ⟨b, -, rfl⟩ := absorb_eq_next.1 first
    have left := block_left_after_first (b := b) hr
    rw [andThen_next, lift_next, andThen_next]
    exact (lift_eq_lift y (absorbed 16 b y) _).trans (exec_abs1_eq_absorb (y := absorbed 16 b y) hp left).symm

end Sys2Proof.Machine

namespace Sys2Proof.Machine

/-! ### The sequencer as arithmetic on numbers (41_iteration.md R104) -/

/-- The operation of R104's table for a remainder, as a number. -/
def mopFor (rem : Nat) : Instr :=
  if 32 ≤ rem then .abs2 else if 16 ≤ rem then .abs1 else if rem = 0 then .fold else .abss (BitVec.ofNat 4 rem)

theorem mopFor_pair {n : Nat} (h : 32 ≤ n) : mopFor n = .abs2 := if_pos h

theorem mopFor_block {n : Nat} (h : 16 ≤ n) (h' : n < 32) : mopFor n = .abs1 := by
  rw [mopFor, if_neg h'.not_ge, if_pos h]

theorem mopFor_short {n : Nat} (h : 0 < n) (h' : n < 16) : mopFor n = .abss (BitVec.ofNat 4 n) := by
  rw [mopFor, if_neg (by omega), if_neg h'.not_ge, if_neg h.ne']

theorem mopFor_zero : mopFor 0 = .fold := rfl

/-- While HANDLED has not passed LEN, the sequencer's word is the one R104's table gives for `LEN - HANDLED`. -/
theorem decode_select_eq_mopFor {w : Nat} {len handled : BitVec w} (h : handled.toNat ≤ len.toNat) :
    decodeMop (selectMop len handled) = some (mopFor (len.toNat - handled.toNat)) := by
  rw [decode_select, remaining_toNat h]
  by_cases h32 : 32 ≤ len.toNat - handled.toNat
  · rw [if_pos h32, mopFor_pair h32]
  by_cases h16 : 16 ≤ len.toNat - handled.toNat
  · rw [if_neg h32, if_pos h16, mopFor_block h16 (by omega)]
  rw [if_neg h32, if_neg h16]
  by_cases hne : handled = len
  · rw [if_neg (not_not.2 hne), hne, Nat.sub_self, mopFor_zero]
  · have short : shortCount len handled = BitVec.ofNat 4 (len.toNat - handled.toNat) := by
      rw [← shortCount_toNat h (by omega), BitVec.ofNat_toNat, BitVec.setWidth_eq]
    have pos : handled.toNat ≠ len.toNat := fun eq => hne (BitVec.eq_of_toNat_eq eq)
    rw [if_pos hne, short, mopFor_short (by omega) (by omega)]

theorem fetch_start {w : Nat} {y : Engine w} (hp : y.phase = .start) : fetch y = some (.mop 0x00#8) := by
  rw [fetch, hp]

theorem fetch_absorb {w : Nat} {y : Engine w} (hp : y.phase = .absorb) :
    fetch y = some (.mop (selectMop y.len y.handled)) := by
  rw [fetch, hp]

/-- Settles O28: the fetched word in each phase, and R104's table. -/
theorem sequencerChoosesByRemainder : Obligations.SequencerChoosesByRemainder := by
  intro w y
  refine ⟨fun hp => by rw [fetch_start hp]; rfl, fun hp hle => ?_, fun z hy hz hlen hhandled => ?_⟩
  · have chosen : (fetch y).bind decode = some (mopFor (y.len.toNat - y.handled.toNat)) := by
      rw [fetch_absorb hp, Option.bind_some, decode_mop, decode_select_eq_mopFor hle]
    rw [chosen]
    refine ⟨fun h => by rw [mopFor_pair h], fun h h' => by rw [mopFor_block h (by omega)], ?_, fun h => by rw [h, mopFor_zero]⟩
    intro r hr h h'
    rw [hr, mopFor_short h (by omega)]
    exact ⟨rfl, Nat.mod_eq_of_lt (by omega)⟩
  · rw [fetch_absorb hz, fetch_absorb hy, hlen, hhandled]

section

variable {w : Nat} {y z : Engine w}

/-! ### The steps of a call whose host at most waits to take the response -/

/-- The host has no move left, or its next one is to take the response. -/
def Engine.HostTakes (y : Engine w) : Prop := y.host = [] ∨ ∃ rest, y.host = .take :: rest

/-- Until the response stands, it is the engine's turn. -/
theorem step_of_hostTakes (h : y.HostTakes) (hp : y.phase ≠ .done) : step ⟨w, y⟩ = engineStep y := by
  refine step_of_host_waiting (h.imp_right ?_)
  rintro ⟨rest, hh⟩
  exact ⟨.take, rest, hh, decide_eq_false hp⟩

theorem step_take {rest : List (HostMove w)} (h : y.host = .take :: rest) (hp : y.phase = .done) :
    step ⟨w, y⟩ = .next ⟨w, respond { y with host := rest }⟩ := by
  simp [step, turn, h, moveEnabled, hp, hostMove]

/-- The engine that has accepted `HASH len` (43_host_interface.md R131). -/
def accepted (len : BitVec w) (y : Engine w) : Engine w :=
  { y with rq := none, len := len, cause := 0x00#8, phase := .start }

/-- The engine after INIT (R100). -/
def initialised (y : Engine w) : Engine w := { y with h := 0, handled := 0, phase := .absorb }

/-- The engine after FOLD (42_finalize.md R120). -/
def folded (y : Engine w) : Engine w := { y with digest := foldBlock y.h, phase := .done }

theorem engineStep_accept {len : BitVec w} (hp : y.phase = .idle) (hq : y.rq = some (encodeHash len))
    (hl : len.toNat ≤ y.bufsize.toNat) : engineStep y = .next ⟨w, accepted len y⟩ := by
  have hf : fetch y = some (.rq (encodeHash len)) := by rw [fetch, hp, hq]; rfl
  rw [engineStep, hf]
  refine (runWire_of_decode (wire := .rq _) (decodeRq_encodeHash len)).trans (exec_eq_next.2 ⟨_, rfl, ?_⟩)
  refine acceptHash_eq_next.2 ⟨hp, .inr ⟨hl, ?_⟩⟩
  rw [BitVec.ofNat_toNat, BitVec.setWidth_eq]
  rfl

theorem engineStep_init (hp : y.phase = .start) : engineStep y = .next ⟨w, initialised y⟩ := by
  rw [engineStep, fetch_start hp]
  exact (runWire_of_decode (i := .init) rfl).trans (exec_init hp)

theorem engineStep_fold (hp : y.phase = .absorb) (hl : y.handled = y.len) : engineStep y = .next ⟨w, folded y⟩ := by
  refine (engineStep_absorb hp ?_).trans (exec_fold hp hl)
  rw [hl, select_fold]
  rfl

end

theorem hashOf_zero (c : Cipher) (b : List Byte) : hashOf c b 0 = 0 := by
  rw [hashOf, hEnd_zero]
  decide

/-- Settles O47: the three steps of `HASH 0` are acceptance, INIT and FOLD, and FOLD is of H = 0. -/
theorem emptyInputHashesToZero : Obligations.EmptyInputHashesToZero := by
  refine ⟨hashOf_zero, rfl, fun w y hp hq hh => ?_⟩
  have first := (step_of_hostTakes (.inl hh) (by simp [hp])).trans (engineStep_accept hp hq (Nat.zero_le _))
  have second := (step_of_hostTakes (y := accepted 0 y) (.inl hh) nofun).trans (engineStep_init rfl)
  have third := (step_of_hostTakes (y := initialised (accepted 0 y)) (.inl hh) nofun).trans (engineStep_fold rfl rfl)
  have zero : foldBlock 0 = 0 := by decide
  refine ⟨folded (initialised (accepted 0 y)), ?_, rfl, rfl, zero, rfl⟩
  rw [run_succ first, run_succ second, run_succ third, run_zero]

end Sys2Proof.Machine

namespace Sys2Proof.Machine

/-! ### The stream behind INIT, operation by operation (41_iteration.md R109) -/

/-- The micro-operations with `n` bytes left to absorb: the stream of R109 without its INIT. -/
def absorbStream (n : Nat) : List Instr := (stream n).tail

theorem stream_eq_cons (n : Nat) : stream n = .init :: absorbStream n := rfl

theorem absorbStream_zero : absorbStream 0 = [.fold] := rfl

theorem absorbStream_pair {n : Nat} (h : 32 ≤ n) : absorbStream n = .abs2 :: absorbStream (n - 32) := by
  simp only [absorbStream, stream, show n / 32 = (n - 32) / 32 + 1 by omega, show n % 32 = (n - 32) % 32 by omega,
    show n % 16 = (n - 32) % 16 by omega, List.replicate_succ]
  rfl

theorem absorbStream_block {n : Nat} (h : 16 ≤ n) (h' : n < 32) : absorbStream n = .abs1 :: absorbStream (n - 16) := by
  simp only [absorbStream, stream, show n / 32 = 0 by omega, show (n - 16) / 32 = 0 by omega,
    show n % 32 = n by omega, show (n - 16) % 32 = n - 16 by omega, h, show ¬ 16 ≤ n - 16 by omega,
    show n % 16 = (n - 16) % 16 by omega, if_true, if_false]
  rfl

theorem absorbStream_short {n : Nat} (h : 0 < n) (h' : n < 16) :
    absorbStream n = .abss (BitVec.ofNat 4 n) :: absorbStream 0 := by
  simp only [absorbStream, stream, show n / 32 = 0 by omega, show n % 32 = n by omega, show n % 16 = n by omega,
    h'.not_ge, h.ne', ne_eq, not_false_eq_true, if_true, if_false]
  rfl

section

variable {w : Nat} {y z y₀ : Engine w}

/-! ### The call in progress, step by step -/

theorem callOk_absorb_iff (hp : y.phase = .absorb) :
    y.CallOk ↔ y.len.toNat ≤ y.bufsize.toNat ∧ y.cause = 0x00#8 ∧
      y.handled.toNat ≤ y.len.toNat ∧ (y.handled.toNat % 16 = 0 ∨ y.handled = y.len) ∧
      tiles 0 y.reads y.handled.toNat = true ∧ y.h = hEnd y.cipher (readBytes y.reads) y.handled.toNat := by
  rw [Engine.CallOk, hp]

/-- HANDLED counts the bytes read. -/
theorem readBytes_length_of_callOk (hp : y.phase = .absorb) (hc : y.CallOk) :
    (readBytes y.reads).length = y.handled.toNat := by
  obtain ⟨-, -, -, -, tiled, -⟩ := (callOk_absorb_iff hp).1 hc
  have := tiles_length tiled
  omega

/-- Absorbing a full block, or all that is left, keeps the call where PHASE says it is. -/
theorem callOk_absorbed {n : Nat} {b : List Byte} (hp : y.phase = .absorb) (hc : y.CallOk) (h1 : 1 ≤ n)
    (h2 : n ≤ (remaining y.len y.handled).toNat) (h3 : n = 16 ∨ n = (remaining y.len y.handled).toNat)
    (read : memRead y y.handled.toNat n = .ok b) : (absorbed n b y).CallOk := by
  have counted := readBytes_length_of_callOk hp hc
  obtain ⟨inside, cause, le, aligned, tiled, state⟩ := (callOk_absorb_iff hp).1 hc
  obtain ⟨-, h16, -, bytes⟩ := memRead_ok read
  obtain ⟨rfl, -⟩ := memBytes_eq_some.1 bytes
  rw [remaining_toNat le] at h2 h3
  have full : y.handled.toNat % 16 = 0 := aligned.resolve_right fun h => by rw [h] at h2; omega
  have next : (advance y.handled b.length).toNat = y.handled.toNat + b.length := advance_toNat (len := y.len) (by omega)
  refine (callOk_absorb_iff (y := absorbed b.length b y) hp).2 ⟨inside, cause, ?_, ?_, ?_, ?_⟩
  · rw [absorbed_handled, absorbed_len, next]
    omega
  · refine h3.imp (fun h => ?_) (fun h => advance_eq_len (len := y.len) (by omega))
    rw [absorbed_handled, next]
    omega
  · rw [absorbed_handled, absorbed_reads, next]
    exact tiles_snoc tiled full h1 h16
  · rw [absorbed_handled, absorbed_reads, absorbed_h, absorbed_cipher, next, state, ← counted, readBytes_append,
      readBytes_cons, readBytes_nil, List.append_nil, hEnd_step _ (counted.symm ▸ full) h1 h16]

theorem reads_nil_of_callOk (hp : y.phase = .idle) (hc : y.CallOk) : y.reads = [] := by
  rwa [Engine.CallOk, hp] at hc

/-- Every step of the engine keeps the call in progress where PHASE says it is. -/
theorem EngineMove.keeps_callOk (m : EngineMove y z) (hc : y.CallOk) : z.CallOk := by
  cases m with
  | illegalCommand word hp hq hcmd =>
    have noReads := reads_nil_of_callOk hp hc
    exact .inr ⟨.inr rfl, rfl, noReads⟩
  | invalidLength word hp hq hcmd hl =>
    have noReads := reads_nil_of_callOk hp hc
    exact .inr ⟨.inl rfl, rfl, noReads⟩
  | accept word hp hq hcmd hl =>
    have noReads := reads_nil_of_callOk hp hc
    exact ⟨noReads, hl, rfl⟩
  | init hp =>
    obtain ⟨noReads, inside, cause⟩ : y.reads = [] ∧ y.len.toNat ≤ y.bufsize.toNat ∧ y.cause = 0x00#8 := by
      rwa [Engine.CallOk, hp] at hc
    simp [Engine.CallOk, noReads, inside, cause, tiles]
  | block n b hp h1 h2 h3 read => exact callOk_absorbed hp hc h1 h2 h3 read
  | pair b d hp h2 readb readd =>
    have first := callOk_absorbed hp hc (by decide) (by omega) (.inl rfl) readb
    exact callOk_absorbed hp first (by decide) (block_left_after_first h2) (.inl rfl) readd
  | fold hp hl =>
    obtain ⟨inside, cause, -, -, tiled, state⟩ := (callOk_absorb_iff hp).1 hc
    rw [hl] at tiled state
    exact .inl ⟨cause, inside, tiled, congrArg foldBlock state⟩

/-! ### What the reads of a call return -/

/-- The reads so far returned the first bytes of the buffer. -/
def Engine.ReadsAreBuffer (y : Engine w) : Prop :=
  memBytes y.buf 0 (readBytes y.reads).length = some (readBytes y.reads)

theorem readsAreBuffer_absorbed {n : Nat} {b : List Byte} (hp : y.phase = .absorb) (hc : y.CallOk)
    (hb : y.ReadsAreBuffer) (read : memRead y y.handled.toNat n = .ok b) : (absorbed n b y).ReadsAreBuffer := by
  obtain ⟨-, -, -, bytes⟩ := memRead_ok read
  obtain ⟨rfl, -⟩ := memBytes_eq_some.1 bytes
  rw [← readBytes_length_of_callOk hp hc, ← Nat.zero_add (readBytes y.reads).length] at bytes
  simpa [Engine.ReadsAreBuffer] using memBytes_append hb bytes

theorem EngineMove.keeps_readsAreBuffer (m : EngineMove y z) (hc : y.CallOk) (hb : y.ReadsAreBuffer) :
    z.ReadsAreBuffer := by
  cases m with
  | illegalCommand => exact hb
  | invalidLength => exact hb
  | accept => exact hb
  | init => exact hb
  | block n b hp h1 h2 h3 read => exact readsAreBuffer_absorbed hp hc hb read
  | pair b d hp h2 readb readd =>
    have first := readsAreBuffer_absorbed hp hc hb readb
    have firstOk := callOk_absorbed hp hc (by decide) (by omega) (.inl rfl) readb
    exact readsAreBuffer_absorbed hp firstOk first readd
  | fold => exact hb

/-! ### From ABSORB to the response -/

/-- A later state `y` of the call that `y₀` has accepted, with a buffer nobody writes: the call is where PHASE says, its
reads returned the buffer's bytes, and what no step of a call changes is as it was. -/
structure Engine.Continues (y₀ y : Engine w) : Prop where
  callOk : y.CallOk
  readsAreBuffer : y.ReadsAreBuffer
  cipher : y.cipher = y₀.cipher
  buf : y.buf = y₀.buf
  bufsize : y.bufsize = y₀.bufsize
  host : y.host = y₀.host
  runs : y.runs = y₀.runs
  len : y.len = y₀.len
  cause : y.cause = y₀.cause

theorem Engine.Continues.move (c : y₀.Continues y) (hp : y.phase ≠ .idle) (m : EngineMove y z) : y₀.Continues z := by
  obtain ⟨cipher, buf, bufsize, host, runs, -, busy⟩ := m.frame
  obtain ⟨-, len, cause⟩ := busy hp
  exact ⟨m.keeps_callOk c.callOk, m.keeps_readsAreBuffer c.callOk c.readsAreBuffer, cipher.trans c.cipher, buf.trans c.buf,
    bufsize.trans c.bufsize, host.trans c.host, runs.trans c.runs, len.trans c.len, cause.trans c.cause⟩

theorem Engine.Continues.portAnswers (c : y₀.Continues y) (port : y₀.PortAnswers) : y.PortAnswers := by
  unfold Engine.PortAnswers
  rwa [c.buf, c.bufsize]

theorem Engine.Continues.hostTakes (c : y₀.Continues y) (hh : y₀.HostTakes) : y.HostTakes := by
  unfold Engine.HostTakes
  rwa [c.host]

/-- Where the port answers, the operation the sequencer chooses runs, and leaves the rest of the stream. -/
theorem exec_mopFor (hp : y.phase = .absorb) (hle : y.handled.toNat ≤ y.len.toNat) (hl : y.len.toNat ≤ y.bufsize.toNat)
    (port : y.PortAnswers) :
    ∃ z, exec (mopFor (y.len.toNat - y.handled.toNat)) ⟨w, y⟩ = .next ⟨w, z⟩ ∧ ∃ rest,
      absorbStream (y.len.toNat - y.handled.toNat) = mopFor (y.len.toNat - y.handled.toNat) :: rest ∧
      (z.phase = .absorb ∧ rest = absorbStream (z.len.toNat - z.handled.toNat) ∨ z.phase = .done ∧ rest = []) := by
  rcases Nat.eq_zero_or_pos (y.len.toNat - y.handled.toNat) with h0 | h0
  · have hend : y.handled = y.len := BitVec.eq_of_toNat_eq (by omega)
    rw [h0]
    exact ⟨_, exec_fold hp hend, [], rfl, .inr ⟨rfl, rfl⟩⟩
  by_cases h32 : 32 ≤ y.len.toNat - y.handled.toNat
  · obtain ⟨b, d, -, -, run⟩ := exec_abs2 hp (by omega) hl port
    have next : (advance y.handled 32).toNat = y.handled.toNat + 32 := advance_toNat (len := y.len) (by omega)
    rw [mopFor_pair h32]
    refine ⟨_, run, _, absorbStream_pair h32, .inl ⟨hp, ?_⟩⟩
    simp only [absorbed_len, absorbed_handled, advance_advance, Nat.reduceAdd, next, Nat.sub_add_eq]
  by_cases h16 : 16 ≤ y.len.toNat - y.handled.toNat
  · obtain ⟨b, -, run⟩ := exec_abs1 hp (by omega) hl port
    have next : (advance y.handled 16).toNat = y.handled.toNat + 16 := advance_toNat (len := y.len) (by omega)
    rw [mopFor_block h16 (by omega)]
    refine ⟨_, run, _, absorbStream_block h16 (by omega), .inl ⟨hp, ?_⟩⟩
    simp only [absorbed_len, absorbed_handled, next, Nat.sub_add_eq]
  · have count : (BitVec.ofNat 4 (y.len.toNat - y.handled.toNat)).toNat = y.len.toNat - y.handled.toNat :=
      Nat.mod_eq_of_lt (by omega)
    have nonzero : BitVec.ofNat 4 (y.len.toNat - y.handled.toNat) ≠ 0#4 := fun h => by
      rw [h] at count
      exact h0.ne count
    obtain ⟨b, -, run⟩ := exec_abss hp nonzero (by omega) hl port
    have next := advance_eq_len (len := y.len) (handled := y.handled) (n := y.len.toNat - y.handled.toNat) (by omega)
    rw [mopFor_short h0 (by omega)]
    refine ⟨_, run, _, absorbStream_short h0 (by omega), .inl ⟨hp, ?_⟩⟩
    rw [absorbed_len, absorbed_handled, count, next, Nat.sub_self]

/-- From ABSORB the call runs to DONE in as many steps as its stream has operations left. -/
theorem run_absorbStream (port : y₀.PortAnswers) (hh : y₀.HostTakes) {ops : List Instr} (c : y₀.Continues y)
    (hp : y.phase = .absorb) (hops : absorbStream (y.len.toNat - y.handled.toNat) = ops) :
    ∃ z, Host.Core.run core ops.length ⟨w, y⟩ = .next ⟨w, z⟩ ∧ z.phase = .done ∧ y₀.Continues z := by
  induction ops generalizing y with
  | nil =>
    obtain ⟨inside, -, le, -⟩ := (callOk_absorb_iff hp).1 c.callOk
    obtain ⟨-, -, rest, h, -⟩ := exec_mopFor hp le inside (c.portAnswers port)
    exact absurd (hops.symm.trans h) nofun
  | cons i ops ih =>
    obtain ⟨inside, -, le, -⟩ := (callOk_absorb_iff hp).1 c.callOk
    obtain ⟨z, run, rest, h, next⟩ := exec_mopFor hp le inside (c.portAnswers port)
    obtain ⟨-, rfl⟩ := List.cons.inj (hops.symm.trans h)
    have engine := (engineStep_absorb hp (decode_select_eq_mopFor le)).trans run
    have first := (step_of_hostTakes (c.hostTakes hh) (by simp [hp])).trans engine
    obtain ⟨_, same, move⟩ := engineStep_move engine
    obtain rfl := eq_of_heq (State.mk.inj same).2
    have later := c.move (by simp [hp]) move
    rw [List.length_cons, run_succ first]
    rcases next with ⟨hz, hrest⟩ | ⟨hz, rfl⟩
    · exact ih later hz hrest.symm
    · exact ⟨z, run_zero _, hz, later⟩

/-- What a call whose buffer nobody writes holds in DONE, when it was accepted without exception. -/
theorem Engine.Continues.done (c : y₀.Continues y) (hcause : y₀.cause = 0x00#8) (hp : y.phase = .done) :
    y.cause = 0x00#8 ∧ tiles 0 y.reads y₀.len.toNat = true ∧ memBytes y₀.buf 0 y₀.len.toNat = some (readBytes y.reads) ∧
      y.digest = hashOf y₀.cipher (readBytes y.reads) y₀.len.toNat := by
  have cause := c.cause.trans hcause
  have ok := c.callOk
  rw [Engine.CallOk, hp] at ok
  obtain ⟨-, -, tiled, digest⟩ := ok.resolve_right fun ⟨h, _⟩ => by simp [cause] at h
  have counted := tiles_length tiled
  have bytes := c.readsAreBuffer
  rw [Engine.ReadsAreBuffer, show (readBytes y.reads).length = y₀.len.toNat by rw [← c.len]; omega, c.buf] at bytes
  exact ⟨cause, c.len ▸ tiled, bytes, by rw [digest, c.cipher, c.len]⟩

end

/-- Settles O49: acceptance and INIT, the stream in ABSORB by `run_absorbStream`, and the response is taken. -/
theorem acceptedCallAnswersHash : Obligations.AcceptedCallAnswersHash := by
  intro w y len b hp hq hh hreads hl port hbytes
  have takes : y.HostTakes := .inr ⟨[], hh⟩
  have accept := (step_of_hostTakes takes (by simp [hp])).trans (engineStep_accept hp hq hl)
  have start : (accepted len y).Continues (accepted len y) :=
    ⟨⟨hreads, hl, rfl⟩, by rw [Engine.ReadsAreBuffer, show (accepted len y).reads = [] from hreads]; rfl,
      rfl, rfl, rfl, rfl, rfl, rfl, rfl⟩
  have init := (step_of_hostTakes (y := accepted len y) takes nofun).trans (engineStep_init rfl)
  have absorbing := start.move nofun (.init rfl)
  obtain ⟨z, absorb, hz, later⟩ :=
    run_absorbStream (y₀ := accepted len y) (ops := absorbStream len.toNat) port takes absorbing rfl rfl
  obtain ⟨cause, tiled, bytes, digest⟩ := later.done rfl hz
  have take := step_take (later.host.trans hh) hz
  obtain rfl : readBytes z.reads = b := Option.some.inj (bytes.symm.trans hbytes)
  refine ⟨respond { z with host := [] }, z.reads, ?_, rfl, ?_, tiled, rfl⟩
  · have steps : 1 + (stream len.toNat).length + 1 = (absorbStream len.toNat).length + 1 + 1 + 1 := by
      rw [stream_eq_cons, List.length_cons]
      omega
    rw [steps, run_succ accept, run_succ init]
    exact (run_add absorb).trans (run_succ take)
  · rw [respond_runs]
    show z.runs ++ [⟨some (encodeRs z.digest z.cause), z.reads⟩] = _
    rw [later.runs, digest, cause]
    rfl

end Sys2Proof.Machine

namespace Sys2Proof.Machine

/-! ### Fold by bits and by bytes (42_finalize.md R121) -/

theorem getLsbD_foldBlock (h : Block) {i : Nat} (hi : i < 64) :
    (foldBlock h).getLsbD i = (h.getLsbD i ^^ h.getLsbD (64 + i)) := by
  simp [foldBlock, hi]

/-- A byte of the digest comes from the two bytes of H that lie eight apart. -/
theorem extractByte_foldBlock (h : Block) {j : Nat} (hj : j < 8) :
    (foldBlock h).extractLsb' (8 * j) 8 = byteOf h j ^^^ byteOf h (j + 8) := by
  refine BitVec.eq_of_getLsbD_eq fun i hi => ?_
  have inside : 8 * j + i < 64 := by omega
  have high : 64 + (8 * j + i) = 8 * (j + 8) + i := by omega
  simp [byteOf, hi, getLsbD_foldBlock h inside, high]

/-- Settles O15: the halves are Fold's definition, from which the bits are read off, and from the bits the bytes. -/
theorem foldXorsTheHalves : Obligations.FoldXorsTheHalves :=
  fun h => ⟨rfl, fun _ => getLsbD_foldBlock h, fun _ => extractByte_foldBlock h⟩

end Sys2Proof.Machine

namespace Sys2Proof.Machine

/-! ### The decoders and their encoders (30_encoding.md R61 to R66) -/

/-- Settles O1: the two fields of a joined word are read back, and a well-formed count is not cut. -/
theorem decodeOfEncodeIsTheInstruction : Obligations.DecodeOfEncodeIsTheInstruction := by
  intro w i hwf
  cases i with
  | hash len =>
    have fits : len < 2 ^ w := of_decide_eq_true hwf
    rw [encode, decode_rq, decodeRq_encodeHash, BitVec.toNat_ofNat, Nat.mod_eq_of_lt fits]
  | abss r => exact decodeMop_abss r (of_decide_eq_true hwf)
  | init => rfl
  | abs1 => rfl
  | abs2 => rfl
  | fold => rfl

theorem mopOpc_append_mopN (word : BitVec 8) : mopOpc word ++ mopN word = word := append_of_extract (n := 4) (k := 4) word

/-- A micro-operation word that decodes has both fields fixed by its operation. -/
theorem encode_of_decodeMop {w : Nat} {word : BitVec 8} {i : Instr} (h : decodeMop word = some i) :
    i.wf w = true ∧ encode w i = .mop word := by
  rw [← mopOpc_append_mopN word]
  unfold decodeMop at h
  split_ifs at h with opc3 n0 nne opc0 opc1 opc2 opc4
  · obtain rfl := Option.some.inj h
    exact ⟨decide_eq_true n0, by rw [opc3, encode]⟩
  all_goals
    obtain rfl := Option.some.inj h
    rw [not_not.1 nne]
  · exact ⟨rfl, by rw [opc0, encode]⟩
  · exact ⟨rfl, by rw [opc1, encode]⟩
  · exact ⟨rfl, by rw [opc2, encode]⟩
  · exact ⟨rfl, by rw [opc4, encode]⟩

theorem decodeRq_eq_some {w : Nat} {word : BitVec (w + 8)} {i : Instr} :
    decodeRq word = some i ↔ rqCmd word = 0x01#8 ∧ i = .hash (rqLen word).toNat := by
  simp [decodeRq, eq_comm]

theorem encode_of_decodeRq {w : Nat} {word : BitVec (w + 8)} {i : Instr} (h : decodeRq word = some i) :
    i.wf w = true ∧ encode w i = .rq word := by
  obtain ⟨cmd, rfl⟩ := decodeRq_eq_some.1 h
  refine ⟨decide_eq_true (rqLen word).isLt, ?_⟩
  rw [encode, BitVec.ofNat_toNat, BitVec.setWidth_eq, encodeHash_of_cmd cmd]

/-- Settles O2: on either interface the decoder fixes every field of the word. -/
theorem encodeOfDecodeIsTheWord : Obligations.EncodeOfDecodeIsTheWord := by
  intro w wire i h
  cases wire with
  | rq word => exact encode_of_decodeRq h
  | mop word => exact encode_of_decodeMop h

/-! ### The opcode table (30_encoding.md R65) -/

/-- Every word of an operation fits the operation's row. -/
theorem row_fits_encode {w : Nat} {i : Instr} (h : i.wf w = true) : i.row.fits (encode w i) = true := by
  cases i with
  | hash len => exact Laws.TableRow.hash len w h
  | init => exact Laws.TableRow.init w h
  | abs1 => exact Laws.TableRow.abs1 w h
  | abs2 => exact Laws.TableRow.abs2 w h
  | abss r => exact Laws.TableRow.abss r w h
  | fold => exact Laws.TableRow.fold w h

theorem row_fits_rq {w : Nat} {word : BitVec (w + 8)} {i : Instr} :
    i.row.fits (.rq word) = true ↔ rqCmd word = 0x01#8 ∧ i.row = (Instr.hash 0).row := by
  have whole (b : BitVec 8) : b &&& 255#8 = b := BitVec.and_allOnes
  cases i <;> simp [Instr.row, OpcodeRow.fits, whole]

/-- A row that fixes all 8 bits, outside ABSS's opcode, fits its own pattern alone. -/
theorem fixed_row_fits_mop {w : Nat} {word : BitVec 8} (p : BitVec 8) (hp : mopOpc p ≠ 0x3#4) :
    OpcodeRow.fits ⟨false, p, 0xFF#8⟩ (.mop word : Wire w) = true ↔
      (⟨false, p, 0xFF#8⟩ : OpcodeRow) = if mopOpc word = 0x3#4 then (Instr.abss 0).row else ⟨false, word, 0xFF#8⟩ := by
  have whole : word &&& 255#8 = word := BitVec.and_allOnes
  have fits : OpcodeRow.fits ⟨false, p, 0xFF#8⟩ (.mop word : Wire w) = true ↔ word = p := by simp [OpcodeRow.fits, whole]
  rw [fits]
  split_ifs with opc
  · exact iff_of_false (fun h => hp (h ▸ opc)) (by simp [Instr.row])
  · simp [eq_comm]

/-- A row for the sequencer's words is determined by the word: it is the row of ABSS by the opcode field, and else the row
whose pattern is the word itself. -/
theorem row_fits_mop {w : Nat} {word : BitVec 8} {i : Instr} :
    i.row.fits (.mop word : Wire w) = true ↔
      i.row = if mopOpc word = 0x3#4 then (Instr.abss 0).row else ⟨false, word, 0xFF#8⟩ := by
  have opcode : ∀ b : BitVec 8, b &&& 0xF0#8 = 0x30#8 ↔ mopOpc b = 0x3#4 := by decide +kernel
  cases i with
  | hash len => exact iff_of_false nofun (by split_ifs <;> nofun)
  | init => exact fixed_row_fits_mop 0x00#8 (by decide)
  | abs1 => exact fixed_row_fits_mop 0x10#8 (by decide)
  | abs2 => exact fixed_row_fits_mop 0x20#8 (by decide)
  | abss r =>
    have fits : (Instr.abss r).row.fits (.mop word : Wire w) = true ↔ mopOpc word = 0x3#4 :=
      decide_eq_true_iff.trans (opcode word)
    rw [fits]
    split_ifs with opc
    · exact iff_of_true opc rfl
    · exact iff_of_false opc (by simp [Instr.row])
  | fold => exact fixed_row_fits_mop 0x40#8 (by decide)

/-- Settles O3: a decoded word is the word of its operation, a word determines the row it fits, and every row but that of
ABSS fits one word alone. -/
theorem decoderFollowsOpcodeTable : Obligations.DecoderFollowsOpcodeTable := by
  refine ⟨fun w wire i h => ?_, fun w wire i j hi hj => ?_, fun w wire i fits ne => ?_⟩
  · obtain ⟨wf, rfl⟩ := encodeOfDecodeIsTheWord w wire i h
    exact row_fits_encode wf
  · cases wire with
    | rq word => exact (row_fits_rq.1 hi).2.trans (row_fits_rq.1 hj).2.symm
    | mop word => exact (row_fits_mop.1 hi).trans (row_fits_mop.1 hj).symm
  · cases wire with
    | rq word =>
      obtain ⟨cmd, row⟩ := row_fits_rq.1 fits
      exact ⟨_, decodeRq_eq_some.2 ⟨cmd, rfl⟩, row.symm⟩
    | mop word =>
      have row := row_fits_mop.1 fits
      split_ifs at row with opc
      · have split : 0x3#4 ++ mopN word = word := opc ▸ mopOpc_append_mopN word
        have n0 : mopN word ≠ 0#4 := fun n0 => ne (congrArg Wire.mop (split.symm.trans (by rw [n0]; rfl)))
        refine ⟨.abss (mopN word), ?_, row.symm⟩
        rw [decode_mop, ← decodeMop_abss _ n0, split]
      · obtain rfl : word = i.row.pattern := by rw [row]
        cases i with
        | hash len => simp [Instr.row] at row
        | abss r => exact absurd (by decide : mopOpc 0x30#8 = 0x3#4) opc
        | init => exact ⟨.init, rfl, rfl⟩
        | abs1 => exact ⟨.abs1, rfl, rfl⟩
        | abs2 => exact ⟨.abs2, rfl, rfl⟩
        | fold => exact ⟨.fold, rfl, rfl⟩

/-- Settles O4: a request word by its command code, and the 256 micro-operation words one by one. -/
theorem reservedWordsDoNotDecode : Obligations.ReservedWordsDoNotDecode :=
  ⟨fun _ _ => by simp [decodeRq], by decide +kernel⟩

/-- Settles O5: each written word is evaluated. -/
theorem specWordsDecode : Obligations.SpecWordsDecode := by
  unfold Obligations.SpecWordsDecode
  decide +kernel

/-! ### Response words (30_encoding.md R62) -/

theorem encodeRs_rsDigest_rsCode (word : BitVec 72) : encodeRs (rsDigest word) (rsCode word) = word :=
  append_of_extract (n := 64) (k := 8) word

/-- A response read from a word is the one whose digest and code stand in the word's fields. -/
theorem encode_of_decodeRs {word : BitVec 72} {r : Response} (h : decodeRs word = some r) : r.encode = word := by
  rw [← encodeRs_rsDigest_rsCode word]
  unfold decodeRs at h
  split_ifs at h with code0 digest0 code1 code2
  all_goals obtain rfl := Option.some.inj h
  · rw [code0, Response.encode]
  · rw [code1, not_not.1 digest0, Response.encode]
  · rw [code2, not_not.1 digest0, Response.encode]

theorem decodeRs_encode (r : Response) : decodeRs r.encode = some r := by
  cases r <;> simp [Response.encode, decodeRs]

/-- Settles O6: the fields of a joined word, read and put together again. -/
theorem responseWordsRoundTrip : Obligations.ResponseWordsRoundTrip :=
  ⟨fun d c => ⟨rsDigest_encodeRs d c, rsCode_encodeRs d c⟩, decodeRs_encode, fun _ _ => encode_of_decodeRs⟩

end Sys2Proof.Machine

namespace Sys2Proof.Machine

section

variable {w : Nat} {y z : Engine w}

/-! ### The step of the machine, said once -/

/-- What one step of the machine does to an engine: an enabled move of the host; a pause used up while the engine has no
step; the engine's own step, with a pause used up or not. -/
inductive Turn (y : Engine w) : Engine w → Prop
  | host (m : HostMove w) (rest : List (HostMove w)) (hh : y.host = m :: rest) (hm : m ≠ .pause)
      (enabled : moveEnabled y m = true) : Turn y (hostMove { y with host := rest } m)
  | pause (rest : List (HostMove w)) (hh : y.host = .pause :: rest) : Turn y { y with host := rest }
  | engine (rest : List (HostMove w)) (z : Engine w) (move : EngineMove { y with host := rest } z) : Turn y z

theorem turn_of_step {t : State} (h : step ⟨w, y⟩ = .next t) : ∃ z : Engine w, t = ⟨w, z⟩ ∧ Turn y z := by
  rcases turn_cases h with ⟨m, rest, hh, hm, enabled, rfl⟩ | ⟨rest, hh, -, rfl⟩ | ⟨rest, z, -, rfl, move⟩ | ⟨z, rfl, move⟩
  · exact ⟨_, rfl, .host m rest hh hm enabled⟩
  · exact ⟨_, rfl, .pause rest hh⟩
  · exact ⟨z, rfl, .engine rest z move⟩
  · exact ⟨z, rfl, .engine y.host z move⟩

/-! ### The invariant (10_state.md R22 to R26; 20_memory.md R45 to R47, R51) -/

/-- Wherever the call stands, its reads cover the bytes they returned. -/
theorem tiles_reads_of_callOk (hc : y.CallOk) : tiles 0 y.reads (readBytes y.reads).length = true := by
  have covered {n : Nat} (h : tiles 0 y.reads n = true) : tiles 0 y.reads (readBytes y.reads).length = true := by
    rwa [show (readBytes y.reads).length = n by have := tiles_length h; omega]
  have none (h : y.reads = []) : tiles 0 y.reads (readBytes y.reads).length = true := by rw [h]; rfl
  unfold Engine.CallOk at hc
  split at hc
  · exact none hc
  · exact none hc.1
  · obtain ⟨-, -, -, -, tiled, -⟩ := hc
    exact covered tiled
  · rcases hc with ⟨-, -, tiled, -⟩ | ⟨-, -, noReads⟩
    · exact covered tiled
    · exact none noReads

theorem callOk_of_idle (hp : y.phase = .idle) (hr : y.reads = []) : y.CallOk := by
  rwa [Engine.CallOk, hp]

/-- A call abandoned by reset is sound: its reads cover the bytes up to where it was abandoned. -/
theorem abandoned_sound (c : Cipher) (hc : y.CallOk) : Run.Sound c ⟨none, y.reads⟩ :=
  ⟨tiles_reads_of_callOk hc, trivial⟩

/-- The response offered in DONE is sound. -/
theorem response_sound (hp : y.phase = .done) (hc : y.CallOk) :
    Run.Sound y.cipher ⟨some (encodeRs y.digest y.cause), y.reads⟩ := by
  refine ⟨tiles_reads_of_callOk hc, ?_⟩
  rw [Engine.CallOk, hp] at hc
  rcases hc with ⟨cause, -, tiled, digest⟩ | ⟨cause, digest, noReads⟩
  · have len : (readBytes y.reads).length = y.len.toNat := by have := tiles_length tiled; omega
    have word : decodeRs (encodeRs y.digest y.cause) = some (.ok y.digest) := by rw [cause]; exact decodeRs_encode (.ok _)
    simp only [word, len]
    exact digest
  · rcases cause with cause | cause
    · have word : decodeRs (encodeRs y.digest y.cause) = some .invalidLength := by
        rw [cause, digest]; exact decodeRs_encode .invalidLength
      simp only [word, noReads]
    · have word : decodeRs (encodeRs y.digest y.cause) = some .illegalCommand := by
        rw [cause, digest]; exact decodeRs_encode .illegalCommand
      simp only [word, noReads]

/-- What the invariant says of the engine, LENW left aside. -/
structure Engine.Inv (y : Engine w) : Prop where
  buf_wf : Memory.wf y.buf = true
  buf_below : memBelow y.bufsize.toNat y.buf = true
  call : y.CallOk
  runs_sound : ∀ r ∈ y.runs, r.Sound y.cipher

theorem inv_iff : State.Inv ⟨w, y⟩ ↔ 6 ≤ w ∧ y.Inv :=
  ⟨fun ⟨lenw, wf, below, call, sound⟩ => ⟨lenw, wf, below, call, sound⟩,
    fun ⟨lenw, wf, below, call, sound⟩ => ⟨lenw, wf, below, call, sound⟩⟩

theorem Engine.Inv.withHost (h : y.Inv) (host : List (HostMove w)) : Engine.Inv { y with host := host } :=
  ⟨h.buf_wf, h.buf_below, h.call, h.runs_sound⟩

theorem runs_sound_snoc {runs : List Run} {c : Cipher} {last : Run} (h : ∀ r ∈ runs, r.Sound c) (hlast : last.Sound c) :
    ∀ r ∈ runs ++ [last], r.Sound c :=
  List.forall_mem_append.2 ⟨h, List.forall_mem_singleton.2 hlast⟩

theorem Engine.Inv.presentBuffer (h : y.Inv) (hp : y.phase = .idle) (bytes : List Byte) (size : BitVec w) :
    (presentBuffer bytes size y).Inv := by
  refine ⟨memOf_wf _, ?_, callOk_of_idle hp (reads_nil_of_callOk (y := y) hp h.call), h.runs_sound⟩
  refine memBelow_mono ?_ (memBelow_memOf 0 (bytes.take size.toNat))
  rw [Nat.zero_add, presentBuffer_bufsize]
  exact List.length_take_le _ _

theorem Engine.Inv.writeBuffer (h : y.Inv) (off : Nat) (b : Byte) : (writeBuffer off b y).Inv := by
  unfold Machine.writeBuffer
  split
  case isTrue inside => exact ⟨memWrite_wf off b h.buf_wf, memBelow_memWrite inside h.buf_below, h.call, h.runs_sound⟩
  case isFalse => exact h

theorem Engine.Inv.respond (h : y.Inv) (hp : y.phase = .done) : (respond y).Inv :=
  ⟨h.buf_wf, h.buf_below, callOk_of_idle rfl rfl, runs_sound_snoc h.runs_sound (response_sound hp h.call)⟩

theorem Engine.Inv.applyReset (h : y.Inv) : (applyReset y).Inv := by
  refine ⟨h.buf_wf, h.buf_below, callOk_of_idle rfl rfl, ?_⟩
  rw [applyReset_runs]
  split
  · exact h.runs_sound
  · exact runs_sound_snoc h.runs_sound (abandoned_sound _ h.call)

@[simp] theorem moveEnabled_withHost (y : Engine w) (host : List (HostMove w)) (m : HostMove w) :
    moveEnabled { y with host := host } m = moveEnabled y m := by
  cases m <;> rfl

theorem Engine.Inv.hostMove (h : y.Inv) {m : HostMove w} (enabled : moveEnabled y m = true) : (hostMove y m).Inv := by
  cases m with
  | present bytes size => exact h.presentBuffer (by simp_all [moveEnabled]) bytes size
  | offer word => exact ⟨h.buf_wf, h.buf_below, h.call, h.runs_sound⟩
  | take => exact h.respond (of_decide_eq_true enabled)
  | write off b => exact h.writeBuffer off b
  | reset => exact h.applyReset
  | pause => exact h

theorem Engine.Inv.engineMove (h : y.Inv) (move : EngineMove y z) : z.Inv := by
  obtain ⟨cipher, buf, bufsize, -, runs, -, -⟩ := move.frame
  exact ⟨buf ▸ h.buf_wf, by rw [buf, bufsize]; exact h.buf_below, move.keeps_callOk h.call,
    by rw [runs, cipher]; exact h.runs_sound⟩

theorem Engine.Inv.turn (h : y.Inv) (t : Turn y z) : z.Inv := by
  cases t with
  | host m rest hh hm enabled => exact (h.withHost rest).hostMove ((moveEnabled_withHost y rest m).trans enabled)
  | pause rest hh => exact h.withHost rest
  | engine rest z move => exact (h.withHost rest).engineMove move

end

/-- Settles O41: the host's moves and the engine's each keep `Engine.Inv`, a response being sound by what stands in DONE. -/
theorem stepKeepsTheInvariant : Obligations.StepKeepsTheInvariant := by
  rintro ⟨w, y⟩ t inv h
  obtain ⟨lenw, ok⟩ := inv_iff.1 inv
  obtain ⟨z, rfl, turn⟩ := turn_of_step h
  exact inv_iff.2 ⟨lenw, ok.turn turn⟩

/-- Settles O40: nothing is presented, read or ended yet. -/
theorem invariantHoldsAtReset : Obligations.InvariantHoldsAtReset :=
  ⟨⟨by decide, rfl, rfl, callOk_of_idle rfl rfl, nofun⟩, rfl⟩

end Sys2Proof.Machine

namespace Sys2Proof.Machine

/-! ### The buffer and its read port (20_memory.md R40, R41) -/

/-- The canonical form of the buffer is not needed: the first cell of an offset is both the one that is written and the one
that is read. -/
theorem memByte_memWrite (m : Memory) (off : Nat) (b : Byte) (a : Nat) :
    memByte (memWrite m off b) a = if a = off then some b else memByte m a := by
  induction m with
  | nil => exact if_congr eq_comm rfl rfl
  | cons cell m ih =>
    obtain ⟨first, c⟩ := cell
    simp only [memWrite]
    split
    · exact if_congr eq_comm rfl rfl
    · split
      case isTrue here =>
        rcases eq_or_ne a off with rfl | ne
        · simp [memByte]
        · simp [memByte, ← here, ne, ne.symm]
      case isFalse further =>
        rcases eq_or_ne a off with rfl | ne
        · simp [memByte, ih, Ne.symm further]
        · simp [memByte, ih, ne]

/-- Settles O16: by the cells of the buffer. -/
theorem bufferWriteThenRead : Obligations.BufferWriteThenRead :=
  fun m off b _ => memByte_memWrite m off b

/-- Settles O17: an answered read says all that the right side does, which is what makes a read answered. -/
theorem memReadReturnsTheBufferBytes : Obligations.MemReadReturnsTheBufferBytes := by
  intro w y off n bs
  constructor
  · intro read
    obtain ⟨h1, h16, inside, bytes⟩ := memRead_ok read
    exact ⟨h1, h16, inside, memBytes_eq_some.1 bytes⟩
  · rintro ⟨h1, h16, inside, bytes⟩
    exact memRead_of_bytes h1 h16 inside (memBytes_eq_some.2 bytes)

/-! ### Operations: completion, frame and precondition -/

/-- Settles O18: the accepting branch of HASH, whose count is at most BUFSIZE and so is not cut. -/
theorem hashCommandStartsACall : Obligations.HashCommandStartsACall := fun _ y _ hp hl =>
  ⟨exec_eq_next.2 ⟨_, rfl, acceptHash_eq_next.2 ⟨hp, .inr ⟨hl, rfl⟩⟩⟩, Nat.mod_eq_of_lt (hl.trans_lt y.bufsize.isLt)⟩

/-- Settles O19: the refusing branch of HASH. -/
theorem overlongHashRaisesInvalidLength : Obligations.OverlongHashRaisesInvalidLength := fun _ _ _ hp hl =>
  exec_eq_next.2 ⟨_, rfl, acceptHash_eq_next.2 ⟨hp, .inl ⟨hl, rfl⟩⟩⟩

theorem foldBlock_equal_halves (half : BitVec 64) : foldBlock (half ++ half) = 0 := by
  rw [foldBlock, extract_low_of_append, extract_high_of_append, BitVec.xor_self]
  rfl

/-- Settles O24: the equation of FOLD; halves that are equal cancel. -/
theorem foldExtractsTheDigest : Obligations.FoldExtractsTheDigest :=
  ⟨by decide, by decide +kernel, foldBlock_equal_halves, fun _ _ hp hl => exec_fold hp hl⟩

section

variable {w : Nat} {x y z : Engine w}

/-- What no operation changes: what stands at the interfaces, the ended calls, CIPHER, and the reads already recorded. -/
structure Engine.SameOutside (y z : Engine w) : Prop where
  buf : z.buf = y.buf
  bufsize : z.bufsize = y.bufsize
  rq : z.rq = y.rq
  host : z.host = y.host
  runs : z.runs = y.runs
  draws : z.draws = y.draws
  cipher : z.cipher = y.cipher
  reads : y.reads <+: z.reads

theorem Engine.SameOutside.trans (h : x.SameOutside y) (h' : y.SameOutside z) : x.SameOutside z :=
  ⟨h'.buf.trans h.buf, h'.bufsize.trans h.bufsize, h'.rq.trans h.rq, h'.host.trans h.host, h'.runs.trans h.runs,
    h'.draws.trans h.draws, h'.cipher.trans h.cipher, h.reads.trans h'.reads⟩

theorem sameOutside_absorbed (n : Nat) (bs : List Byte) (y : Engine w) : y.SameOutside (absorbed n bs y) :=
  ⟨rfl, rfl, rfl, rfl, rfl, rfl, rfl, List.prefix_append _ _⟩

/-- An update of registers alone. -/
theorem sameOutside_of_registers (y : Engine w) (h : Block) (handled len : BitVec w) (digest : Digest) (phase : Phase)
    (cause : BitVec 8) : y.SameOutside
      { y with h := h, handled := handled, len := len, digest := digest, phase := phase, cause := cause } :=
  ⟨rfl, rfl, rfl, rfl, rfl, rfl, rfl, List.prefix_rfl⟩

/-- The frame as the statement writes it, with what is said of the registers behind it. -/
theorem Engine.SameOutside.and {registers : Prop} (h : y.SameOutside z) (hr : registers) :
    (∀ off, memByte z.buf off = memByte y.buf off) ∧ z.bufsize = y.bufsize ∧ z.rq = y.rq ∧ z.host = y.host ∧
      z.runs = y.runs ∧ z.draws = y.draws ∧ z.cipher = y.cipher ∧ y.reads <+: z.reads ∧ registers :=
  ⟨fun off => by rw [h.buf], h.bufsize, h.rq, h.host, h.runs, h.draws, h.cipher, h.reads, hr⟩

end

/-- Settles O26: HASH, INIT and FOLD update registers, and the others absorb one or two blocks. -/
theorem operationsWriteOnlyTheirRegisters : Obligations.OperationsWriteOnlyTheirRegisters := by
  intro w y i t h
  obtain ⟨z, rfl, op⟩ := exec_eq_next.1 h
  refine ⟨z, rfl, ?_⟩
  cases i with
  | hash len =>
    rcases acceptHash_eq_next.1 op with ⟨-, ⟨-, rfl⟩ | ⟨-, rfl⟩⟩
    · exact (sameOutside_of_registers ..).and ⟨rfl, rfl, rfl⟩
    · exact (sameOutside_of_registers ..).and ⟨rfl, rfl, rfl⟩
  | init =>
    obtain ⟨-, rfl⟩ := initOp_eq_next.1 op
    exact (sameOutside_of_registers ..).and ⟨rfl, rfl, rfl, rfl⟩
  | abs1 =>
    obtain ⟨-, -, bs, -, rfl⟩ := abs1Op_eq_next.1 op
    exact (sameOutside_absorbed 16 bs y).and ⟨rfl, rfl, rfl, rfl⟩
  | abs2 =>
    obtain ⟨-, -, bs, cs, -, -, rfl⟩ := abs2Op_eq_next.1 op
    exact ((sameOutside_absorbed 16 bs y).trans (sameOutside_absorbed 16 cs _)).and ⟨rfl, rfl, rfl, rfl⟩
  | abss r =>
    obtain ⟨-, -, -, bs, -, rfl⟩ := abssOp_eq_next.1 op
    exact (sameOutside_absorbed _ bs y).and ⟨rfl, rfl, rfl, rfl⟩
  | fold =>
    obtain ⟨-, -, rfl⟩ := foldOp_eq_next.1 op
    exact (sameOutside_of_registers ..).and ⟨rfl, rfl, rfl, rfl, rfl⟩

/-- Settles O27: each operation answers only under its precondition. -/
theorem operationsNeedTheirPreconditions : Obligations.OperationsNeedTheirPreconditions := by
  intro w y i t h
  obtain ⟨z, -, op⟩ := exec_eq_next.1 h
  cases i with
  | hash len => exact (acceptHash_eq_next.1 op).1
  | init => exact (initOp_eq_next.1 op).1
  | abs1 =>
    obtain ⟨hp, hr, -⟩ := abs1Op_eq_next.1 op
    exact ⟨hp, hr⟩
  | abs2 =>
    obtain ⟨hp, hr, -⟩ := abs2Op_eq_next.1 op
    exact ⟨hp, hr⟩
  | abss r =>
    obtain ⟨hp, h0, hr, -⟩ := abssOp_eq_next.1 op
    exact ⟨hp, h0, hr⟩
  | fold =>
    obtain ⟨hp, hl, -⟩ := foldOp_eq_next.1 op
    exact ⟨hp, hl⟩

/-- Settles O29: `decode_select` names the operation. -/
theorem sequencerNeverProducesReservedWord : Obligations.SequencerNeverProducesReservedWord :=
  fun _ len handled => ⟨_, decode_select len handled⟩

section

variable {w : Nat} {y : Engine w}

/-! ### The engine's turn -/

theorem engineStep_of_decode {wire : Wire w} {i : Instr} (hf : fetch y = some wire) (hd : decode wire = some i) :
    engineStep y = exec i ⟨w, taken wire y⟩ := by
  rw [engineStep, hf]
  exact runWire_of_decode hd

/-- The three outcomes of acceptance (43_host_interface.md R131). -/
theorem engineStep_request {word : BitVec (w + 8)} (hp : y.phase = .idle) (hq : y.rq = some word) :
    engineStep y =
      if rqCmd word ≠ 0x01#8 then .next ⟨w, raise .illegalCommand { y with rq := none }⟩
      else if y.bufsize < rqLen word then .next ⟨w, raise .invalidLength { y with rq := none }⟩
      else .next ⟨w, accepted (rqLen word) y⟩ := by
  have hf : fetch y = some (.rq word) := by rw [fetch, hp, hq]; rfl
  split_ifs with cmd long
  · rw [engineStep, hf]
    simp only [runWire, decode_rq, decodeRq, if_neg cmd]
    rfl
  · rw [engineStep_of_decode hf (decodeRq_eq_some.2 ⟨not_not.1 cmd, rfl⟩)]
    exact overlongHashRaisesInvalidLength w _ _ hp long
  · rw [← encodeHash_of_cmd (not_not.1 cmd)] at hq
    exact engineStep_accept hp hq (BitVec.not_lt.1 long)

end

/-- Settles O30: in each of the three cases it is the engine's turn, and its step is `exec` of the word it fetches. -/
theorem stepRunsTheDecodedInstruction : Obligations.StepRunsTheDecodedInstruction := by
  intro w y wire i hf hd
  have run := engineStep_of_decode hf hd
  refine ⟨(encodeOfDecodeIsTheWord w wire i hd).1, fun hh => ?_, fun rest hh => ?_, fun m rest hh disabled => ?_⟩
  · rw [step_of_host_waiting (.inl hh), run]
  · rw [step_of_hostWaits (.inr (.inl ⟨rest, hh⟩)) (by rw [hf]; rfl), pauseUsed_of_pause y hh]
    exact engineStep_of_decode (y := { y with host := rest }) hf hd
  · rw [step_of_host_waiting (.inr ⟨m, rest, hh, disabled⟩), run]

/-- Settles O31: `engineStep_request` for the engine with its pause used up. -/
theorem acceptanceOfARequestWord : Obligations.AcceptanceOfARequestWord := by
  intro w y word hp hq waits
  have fetched : (fetch y).isSome = true := by rw [fetch, hp, hq]; rfl
  rw [step_of_hostWaits waits fetched, engineStep_request ((pauseUsed_phase y).trans hp)
    ((pauseUsed_rq y).trans hq), ← pauseUsed_bufsize y]
  rfl

end Sys2Proof.Machine

namespace Sys2Proof.Machine

section

variable {w : Nat} {y z : Engine w}

/-! ### The host's moves (43_host_interface.md R130 to R134) -/

theorem step_hostMove {m : HostMove w} {rest : List (HostMove w)} (hh : y.host = m :: rest) (hm : m ≠ .pause)
    (enabled : moveEnabled y m = true) : step ⟨w, y⟩ = .next ⟨w, hostMove { y with host := rest } m⟩ := by
  cases m with
  | pause => exact absurd rfl hm
  | _ => simp only [step, turn, hh, enabled, if_true]

/-- What no host move but the taking of the response and reset changes: the registers and the record of the call. -/
structure Engine.SameRegisters (y z : Engine w) : Prop where
  h : z.h = y.h
  handled : z.handled = y.handled
  len : z.len = y.len
  digest : z.digest = y.digest
  phase : z.phase = y.phase
  cause : z.cause = y.cause
  cipher : z.cipher = y.cipher
  reads : z.reads = y.reads
  runs : z.runs = y.runs
  draws : z.draws = y.draws

theorem sameRegisters_hostMove (y : Engine w) {m : HostMove w} (take : m ≠ .take) (reset : m ≠ .reset) :
    y.SameRegisters (hostMove y m) := by
  cases m with
  | present bytes size => exact ⟨rfl, rfl, rfl, rfl, rfl, rfl, rfl, rfl, rfl, rfl⟩
  | offer word => exact ⟨rfl, rfl, rfl, rfl, rfl, rfl, rfl, rfl, rfl, rfl⟩
  | write off b =>
    exact ⟨writeBuffer_h .., writeBuffer_handled .., writeBuffer_len .., writeBuffer_digest .., writeBuffer_phase ..,
      writeBuffer_cause .., writeBuffer_cipher .., writeBuffer_reads .., writeBuffer_runs .., writeBuffer_draws ..⟩
  | take => exact absurd rfl take
  | reset => exact absurd rfl reset
  | pause => exact ⟨rfl, rfl, rfl, rfl, rfl, rfl, rfl, rfl, rfl, rfl⟩

@[simp] theorem hostMove_cipher (y : Engine w) (m : HostMove w) : (hostMove y m).cipher = y.cipher := by
  cases m with
  | write off b => exact writeBuffer_cipher ..
  | _ => rfl

/-- A word that stands in the channel is not overwritten: only one is offered at a time. -/
theorem hostMove_rq {m : HostMove w} (enabled : moveEnabled y m = true) {word : BitVec (w + 8)} (hq : y.rq = some word) :
    (hostMove y m).rq = some word := by
  cases m with
  | offer other => simp [moveEnabled, hq] at enabled
  | write off b => exact (writeBuffer_rq ..).trans hq
  | _ => exact hq

theorem memByte_presentBuffer (bytes : List Byte) (size : BitVec w) (y : Engine w) (a : Nat) :
    memByte (presentBuffer bytes size y).buf a = if a < size.toNat then bytes[a]? else none := by
  have placed := memByte_memOf 0 (bytes.take size.toNat) a
  rwa [Nat.zero_add, List.getElem?_take] at placed

theorem memByte_writeBuffer (off : Nat) (b : Byte) (y : Engine w) (a : Nat) :
    memByte (writeBuffer off b y).buf a = if a = off ∧ off < y.bufsize.toNat then some b else memByte y.buf a := by
  rw [writeBuffer_buf]
  by_cases inside : off < y.bufsize.toNat
  · simp only [inside, if_true, and_true, memByte_memWrite]
  · simp only [inside, if_false, and_false]

/-! ### The engine's own step in each phase -/

theorem EngineMove.not_done (m : EngineMove y z) : y.phase ≠ .done := by
  cases m <;> simp [*]

/-- The record of reads grows in ABSORB only. -/
theorem EngineMove.reads (m : EngineMove y z) : z.reads = y.reads ∨ (y.phase = .absorb ∧ z.phase = .absorb) := by
  cases m with
  | block n bs hp => exact .inr ⟨hp, hp⟩
  | pair bs cs hp => exact .inr ⟨hp, hp⟩
  | _ => exact .inl rfl

/-- The transitions of 10_state.md R25 that the engine makes by itself, each by its own cause. -/
theorem EngineMove.phase (m : EngineMove y z) : z.phase = y.phase ∨ ∃ wire, fetch y = some wire ∧
    ((y.phase = .idle ∧ z.phase = .start ∧ (∃ len, decode wire = some (.hash len)) ∧ z.cause = 0x00#8) ∨
     (y.phase = .idle ∧ z.phase = .done ∧ (z.cause = 0x01#8 ∨ z.cause = 0x02#8)) ∨
     (y.phase = .start ∧ z.phase = .absorb ∧ decode wire = some .init) ∨
     (y.phase = .absorb ∧ z.phase = .done ∧ decode wire = some .fold)) := by
  have fetch_idle {word : BitVec (w + 8)} (hp : y.phase = .idle) (hq : y.rq = some word) : fetch y = some (.rq word) := by
    rw [fetch, hp, hq]
    rfl
  cases m with
  | illegalCommand word hp hq hc => exact .inr ⟨_, fetch_idle hp hq, .inr (.inl ⟨hp, rfl, .inr rfl⟩)⟩
  | invalidLength word hp hq hc hl => exact .inr ⟨_, fetch_idle hp hq, .inr (.inl ⟨hp, rfl, .inl rfl⟩)⟩
  | accept word hp hq hc hl =>
    exact .inr ⟨_, fetch_idle hp hq, .inl ⟨hp, rfl, ⟨_, decodeRq_eq_some.2 ⟨hc, rfl⟩⟩, rfl⟩⟩
  | init hp => exact .inr ⟨_, fetch_start hp, .inr (.inr (.inl ⟨hp, rfl, rfl⟩))⟩
  | block n bs hp => exact .inl rfl
  | pair bs cs hp => exact .inl rfl
  | fold hp hl =>
    have chosen : decodeMop (selectMop y.len y.handled) = some .fold := by rw [hl, select_fold]; rfl
    exact .inr ⟨_, fetch_absorb hp, .inr (.inr (.inr ⟨hp, rfl, chosen⟩))⟩

end

/-- Settles O32: the host offers one word at a time, and the engine takes one in IDLE only. -/
theorem requestWaitsWhileBusy : Obligations.RequestWaitsWhileBusy := by
  rintro ⟨w, y⟩ t word busy hq h
  obtain ⟨z, rfl, turn⟩ := turn_of_step h
  refine ⟨z, rfl, ?_⟩
  cases turn with
  | host m rest hh hm enabled => exact hostMove_rq ((moveEnabled_withHost y rest m).trans enabled) hq
  | pause rest hh => exact hq
  | engine rest z move =>
    obtain ⟨-, -, -, -, -, -, kept⟩ := move.frame
    exact (kept busy).1.trans hq

/-- Settles O33: the fields after the response. -/
theorem takingTheResponseEndsTheCall : Obligations.TakingTheResponseEndsTheCall :=
  fun _ _ _ hp hh => ⟨_, step_take hh hp, rfl, rfl, rfl, rfl, rfl, rfl, rfl, rfl⟩

/-- Settles O34: the engine has no step in DONE, and no other move of the host touches a register. -/
theorem responseStaysOffered : Obligations.ResponseStaysOffered := by
  intro w y t hp h take reset
  obtain ⟨z, rfl, turn⟩ := turn_of_step h
  refine ⟨z, rfl, ?_⟩
  cases turn with
  | host m rest hh hm enabled =>
    have same := sameRegisters_hostMove { y with host := rest } (m := m) (fun hm => take rest (hm ▸ hh))
      (fun hm => reset rest (hm ▸ hh))
    exact ⟨same.phase.trans hp, same.digest, same.cause, same.reads, same.runs⟩
  | pause rest hh => exact ⟨hp, rfl, rfl, rfl, rfl⟩
  | engine rest z move => exact absurd hp move.not_done

/-- Settles O35: the registers by `sameRegisters_hostMove`, the buffer byte by byte. -/
theorem hostMovesTouchNoRegister : Obligations.HostMovesTouchNoRegister := by
  intro w y m rest hh take reset pause enabled _
  have same := sameRegisters_hostMove { y with host := rest } take reset
  refine ⟨_, step_hostMove hh pause enabled, ?_, same.h, same.handled, same.len, same.digest, same.phase, same.cause,
    same.cipher, same.reads, same.runs, same.draws, ?_, ?_, ?_⟩
  · cases m with
    | write off b => exact writeBuffer_host ..
    | _ => rfl
  · rintro bytes size rfl
    exact ⟨rfl, rfl, memByte_presentBuffer bytes size _⟩
  · rintro word rfl
    exact ⟨rfl, rfl, rfl⟩
  · rintro off b rfl
    exact ⟨writeBuffer_rq .., writeBuffer_bufsize .., memByte_writeBuffer off b _⟩

/-- Settles O36: the fields after reset. -/
theorem resetAbandonsTheCall : Obligations.ResetAbandonsTheCall :=
  fun _ _ _ hh => ⟨_, step_hostMove hh nofun rfl, rfl, rfl, rfl, rfl, rfl, rfl, rfl, rfl⟩

/-- Settles O37: the host moves PHASE by taking the response and by reset, the engine as `EngineMove.phase` says. -/
theorem phaseMovesAlongItsTransitions : Obligations.PhaseMovesAlongItsTransitions := by
  intro w y t h
  obtain ⟨z, rfl, turn⟩ := turn_of_step h
  cases turn with
  | host m rest hh hm enabled =>
    by_cases take : m = .take
    · subst take
      exact .inr (.inr (.inl ⟨rest, hh, of_decide_eq_true enabled, rfl⟩))
    by_cases reset : m = .reset
    · subst reset
      exact .inr (.inl ⟨rest, hh, rfl⟩)
    exact .inl (sameRegisters_hostMove { y with host := rest } take reset).phase
  | pause rest hh => exact .inl rfl
  | engine rest z move => exact move.phase.imp_right fun own => .inr (.inr own)

/-- Settles O38: taking the response and reset lead to IDLE, and every other step of a call keeps LEN. -/
theorem lenIsConstantDuringACall : Obligations.LenIsConstantDuringACall := by
  intro w y t h busy busy'
  obtain ⟨z, rfl, turn⟩ := turn_of_step h
  refine ⟨z, rfl, ?_⟩
  cases turn with
  | host m rest hh hm enabled =>
    exact (sameRegisters_hostMove { y with host := rest } (m := m) (fun take => busy' (by rw [take]; rfl))
      (fun reset => busy' (by rw [reset]; rfl))).len
  | pause rest hh => rfl
  | engine rest z move =>
    obtain ⟨-, -, -, -, -, -, kept⟩ := move.frame
    exact (kept busy).2.1

/-- Settles O39: neither the host's moves nor the engine's write CIPHER, and both stay at their LENW. -/
theorem configurationIsFixed : Obligations.ConfigurationIsFixed := by
  rintro ⟨w, y⟩ t h
  obtain ⟨z, rfl, turn⟩ := turn_of_step h
  refine ⟨rfl, ?_⟩
  cases turn with
  | host m rest hh hm enabled => exact hostMove_cipher _ m
  | pause rest hh => rfl
  | engine rest z move => exact move.frame.1

/-- Settles O42: a new read is made in ABSORB, where after the step too the reads cover the HANDLED bytes and no more. -/
theorem everyReadIsBelowLenAndAligned : Obligations.EveryReadIsBelowLenAndAligned := by
  rintro ⟨w, y⟩ t inv h e he new
  obtain ⟨-, ok⟩ := inv_iff.1 inv
  obtain ⟨z, rfl, turn⟩ := turn_of_step h
  cases turn with
  | host m rest hh hm enabled =>
    by_cases take : m = .take
    · subst take
      exact absurd he List.not_mem_nil
    by_cases reset : m = .reset
    · subst reset
      exact absurd he List.not_mem_nil
    rw [(sameRegisters_hostMove { y with host := rest } take reset).reads] at he
    exact absurd he new
  | pause rest hh => exact absurd he new
  | engine rest z move =>
    rcases move.reads with same | ⟨hp, hz⟩
    · exact absurd (same ▸ he) new
    · obtain ⟨-, -, bufsize, -, -, -, kept⟩ := move.frame
      obtain ⟨-, len, -⟩ := kept (by rw [hp]; nofun)
      obtain ⟨inside, -, handled, -, tiled, -⟩ := (callOk_absorb_iff hz).1 (move.keeps_callOk ok.call)
      obtain ⟨aligned, h1, h16, -, below⟩ := tiles_mem tiled he
      rw [len] at handled inside
      rw [bufsize] at inside
      exact ⟨aligned, h1, h16, below.trans handled, inside⟩

end Sys2Proof.Machine

namespace Sys2Proof.Machine

section

variable {w : Nat} {y z : Engine w}

/-! ### Whose step it is -/

/-- A step is made by the host, or it is the engine's, which moves while the host waits or pauses. -/
theorem step_next_or_engineStep (y : Engine w) :
    (∃ t, step ⟨w, y⟩ = .next t) ∨
    ((y.host = [] ∨ ∃ m rest, y.host = m :: rest ∧ moveEnabled y m = false) ∧ step ⟨w, y⟩ = engineStep y) ∨
    ∃ rest, (fetch y).isSome = true ∧ step ⟨w, y⟩ = engineStep { y with host := rest } := by
  cases hh : y.host with
  | nil => exact .inr (.inl ⟨.inl rfl, step_of_host_waiting (.inl hh)⟩)
  | cons m rest =>
    by_cases enabled : moveEnabled y m = true
    · by_cases pause : m = .pause
      · subst pause
        by_cases fetched : (fetch y).isSome = true
        · refine .inr (.inr ⟨rest, fetched, ?_⟩)
          rw [step_of_hostWaits (.inr (.inl ⟨rest, hh⟩)) fetched, pauseUsed_of_pause y hh]
        · exact .inl ⟨⟨w, { y with host := rest }⟩, by simp only [step, turn, hh, fetched]; rfl⟩
      · exact .inl ⟨_, step_hostMove hh pause enabled⟩
    · have disabled := eq_false_of_ne_true enabled
      exact .inr (.inl ⟨.inr ⟨m, rest, rfl, disabled⟩, step_of_host_waiting (.inr ⟨m, rest, hh, disabled⟩)⟩)

/-! ### Standing still -/

theorem fetch_eq_none : fetch y = none ↔ (y.phase = .idle ∧ y.rq = none) ∨ y.phase = .done := by
  cases hp : y.phase <;> simp [fetch, hp]

theorem lift_eq_fault {s : State} {r : Result (Engine s.lenw)} {f : Fault} : s.lift r = .fault f ↔ r = .fault f := by
  cases r <;> simp [State.lift]

theorem memRead_ne_still (off n : Nat) : memRead y off n ≠ .error .noEnabledStep := by
  unfold memRead
  split
  · split <;> nofun
  · nofun

theorem absorb_ne_still (n : Nat) : absorb n y ≠ .fault .noEnabledStep := by
  cases read : memRead y y.handled.toNat n with
  | ok bs => rw [absorb_of_read read]; nofun
  | error f =>
    rw [absorb_of_stuck read]
    intro h
    injection h with h
    exact memRead_ne_still _ _ (h ▸ read)

/-- An operation that stops names its own precondition or its read, never that nothing was enabled. -/
theorem exec_ne_still (i : Instr) : exec i ⟨w, y⟩ ≠ .fault .noEnabledStep := by
  cases i with
  | hash len =>
    rw [exec, execHash, Ne, lift_eq_fault]
    unfold acceptHash
    split_ifs <;> nofun
  | init =>
    rw [exec, execInit, Ne, lift_eq_fault]
    unfold initOp
    split_ifs <;> nofun
  | abs1 =>
    rw [exec, execAbs1, Ne, lift_eq_fault]
    unfold abs1Op
    split_ifs
    · nofun
    · exact absorb_ne_still 16
    · nofun
  | abs2 =>
    rw [exec, execAbs2, Ne, lift_eq_fault]
    by_cases pre : y.phase = .absorb ∧ 32 ≤ (remaining y.len y.handled).toNat
    · rw [abs2Op_eq_absorb_twice pre.1 pre.2]
      cases first : absorb 16 y with
      | next z => exact absorb_ne_still 16
      | fault f => exact fun h => absorb_ne_still 16 (first.trans h)
      | refused r => nofun
    · unfold abs2Op
      split_ifs with phase left
      · nofun
      · exact absurd ⟨not_not.1 phase, left⟩ pre
      · nofun
  | abss r =>
    rw [exec, execAbss, Ne, lift_eq_fault]
    unfold abssOp
    split_ifs
    · nofun
    · nofun
    · exact absorb_ne_still _
    · nofun
  | fold =>
    rw [exec, execFold, Ne, lift_eq_fault]
    unfold foldOp
    split_ifs <;> nofun

theorem engineStep_still : engineStep y = .fault .noEnabledStep ↔ fetch y = none := by
  cases hf : fetch y with
  | none => simp [engineStep, hf]
  | some wire =>
    refine iff_of_false (fun h => ?_) nofun
    cases hd : decode wire with
    | some i => exact exec_ne_still i ((engineStep_of_decode hf hd).symm.trans h)
    | none =>
      rw [engineStep, hf] at h
      cases wire <;> simp [runWire, hd] at h

/-! ### The engine's step in ABSORB, as blocks -/

theorem exec_abss_eq_absorb {r : BitVec 4} (hp : y.phase = .absorb) (h0 : r ≠ 0#4)
    (hr : (remaining y.len y.handled).toNat = r.toNat) : exec (.abss r) ⟨w, y⟩ = State.lift ⟨w, y⟩ (absorb r.toNat y) := by
  simp [exec, execAbss, abssOp, hp, h0, hr]

/-- With fewer than 32 bytes left the engine absorbs one block, of 16 bytes or of all that are left. -/
theorem engineStep_block (hp : y.phase = .absorb) (h : y.handled.toNat < y.len.toNat)
    (h' : y.len.toNat < y.handled.toNat + 32) :
    engineStep y = State.lift ⟨w, y⟩ (absorb (min 16 (y.len.toNat - y.handled.toNat)) y) := by
  have rem := remaining_toNat h.le
  rw [engineStep_absorb hp (decode_select_eq_mopFor h.le)]
  by_cases h16 : 16 ≤ y.len.toNat - y.handled.toNat
  · rw [mopFor_block h16 (by omega), min_eq_left h16, exec_abs1_eq_absorb hp (rem ▸ h16)]
  · have count : (BitVec.ofNat 4 (y.len.toNat - y.handled.toNat)).toNat = y.len.toNat - y.handled.toNat :=
      Nat.mod_eq_of_lt (by omega)
    have nonzero : BitVec.ofNat 4 (y.len.toNat - y.handled.toNat) ≠ 0#4 := fun h0 => by
      rw [h0] at count
      exact absurd count (Nat.sub_pos_of_lt h).ne
    rw [mopFor_short (Nat.sub_pos_of_lt h) (by omega), exec_abss_eq_absorb hp nonzero (rem.trans count.symm), count,
      min_eq_right (by omega)]

/-- With 32 bytes left the engine absorbs two blocks of 16. -/
theorem engineStep_pair (hp : y.phase = .absorb) (h : y.handled.toNat + 32 ≤ y.len.toNat) :
    engineStep y = State.lift ⟨w, y⟩ (andThen (absorb 16 y) (absorb 16)) := by
  have rem : 32 ≤ (remaining y.len y.handled).toNat := by rw [remaining_toNat (by omega)]; omega
  rw [engineStep_absorb hp (decode_select_eq_mopFor (by omega)), mopFor_pair (by omega), exec, execAbs2,
    abs2Op_eq_absorb_twice hp rem]

/-- The second block of a pair begins 16 bytes further. -/
theorem handled_after_first {b : List Byte} (h : y.handled.toNat + 32 ≤ y.len.toNat) :
    (absorbed 16 b y).handled.toNat = y.handled.toNat + 16 :=
  advance_toNat (len := y.len) (by omega)

/-! ### What can stop the machine -/

/-- A next state, or a read that the port does not answer. -/
def AnswersOrSilent {α : Type} (r : Result α) : Prop := (∃ a, r = .next a) ∨ r = .fault .portSilent

theorem AnswersOrSilent.lift {s : State} {r : Result (Engine s.lenw)} (h : AnswersOrSilent r) :
    AnswersOrSilent (s.lift r) := by
  rcases h with ⟨z, rfl⟩ | rfl
  · exact .inl ⟨_, rfl⟩
  · exact .inr rfl

theorem absorb_answersOrSilent {n : Nat} (h1 : 1 ≤ n) (h16 : n ≤ 16) (inside : y.handled.toNat + n ≤ y.bufsize.toNat) :
    AnswersOrSilent (absorb n y) := by
  cases read : memRead y y.handled.toNat n with
  | ok bs => exact .inl ⟨_, absorb_of_read read⟩
  | error f => exact .inr (memRead_error h1 h16 inside read ▸ absorb_of_stuck read)

theorem absorb_pair_answersOrSilent (h : y.handled.toNat + 32 ≤ y.len.toNat) (inside : y.len.toNat ≤ y.bufsize.toNat) :
    AnswersOrSilent (andThen (absorb 16 y) (absorb 16)) := by
  rcases absorb_answersOrSilent (y := y) (n := 16) (by decide) le_rfl (by omega) with ⟨z, first⟩ | first
  · obtain ⟨b, -, rfl⟩ := absorb_eq_next.1 first
    rw [first, andThen_next]
    refine absorb_answersOrSilent (by decide) le_rfl ?_
    rw [handled_after_first h, absorbed_bufsize]
    omega
  · exact .inr (by rw [first]; rfl)

/-- Where the call stands as it must, the engine stops only for a silent port or because it has nothing to do. -/
theorem engineStep_answersOrWaits (hc : y.CallOk) :
    AnswersOrSilent (engineStep y) ∨ engineStep y = .fault .noEnabledStep := by
  cases hp : y.phase with
  | idle =>
    cases hq : y.rq with
    | none => exact .inr (engineStep_still.2 (fetch_eq_none.2 (.inl ⟨hp, hq⟩)))
    | some word =>
      rw [engineStep_request hp hq]
      split_ifs
      · exact .inl (.inl ⟨_, rfl⟩)
      · exact .inl (.inl ⟨_, rfl⟩)
      · exact .inl (.inl ⟨_, rfl⟩)
  | start => exact .inl (.inl ⟨_, engineStep_init hp⟩)
  | absorb =>
    obtain ⟨inside, -, le, -⟩ := (callOk_absorb_iff hp).1 hc
    refine .inl ?_
    rcases le.eq_or_lt with eq | lt
    · exact .inl ⟨_, engineStep_fold hp (BitVec.eq_of_toNat_eq eq)⟩
    by_cases h32 : y.handled.toNat + 32 ≤ y.len.toNat
    · rw [engineStep_pair hp h32]
      exact (absorb_pair_answersOrSilent h32 inside).lift
    · rw [engineStep_block hp lt (by omega)]
      exact (absorb_answersOrSilent (by omega) (by omega) (by omega)).lift
  | done => exact .inr (engineStep_still.2 (fetch_eq_none.2 (.inr hp)))

end

/-- Settles O43: a step that stops is the engine's, and `engineStep_answersOrWaits` names its two stops. -/
theorem onlyTheOutsideCanStopTheMachine : Obligations.OnlyTheOutsideCanStopTheMachine := by
  rintro ⟨w, y⟩ inv
  obtain ⟨-, ok⟩ := inv_iff.1 inv
  have outcome : (∃ t, step ⟨w, y⟩ = .next t) ∨ step ⟨w, y⟩ = .fault .portSilent ∨ step ⟨w, y⟩ = .fault .noEnabledStep := by
    rcases step_next_or_engineStep y with next | ⟨-, own⟩ | ⟨rest, -, own⟩
    · exact .inl next
    · rw [own]
      exact or_assoc.1 (engineStep_answersOrWaits ok.call)
    · rw [own]
      exact or_assoc.1 (engineStep_answersOrWaits (ok.withHost rest).call)
  rcases outcome with ⟨t, h⟩ | h | h
  · exact ⟨fun r => h ▸ nofun, fun f => h ▸ nofun⟩
  · exact ⟨fun r => h ▸ nofun, fun f hf => .inl (by simpa [h, eq_comm] using hf)⟩
  · exact ⟨fun r => h ▸ nofun, fun f hf => .inr (by simpa [h, eq_comm] using hf)⟩

/-- Settles O44: the engine says that nothing is enabled exactly when it fetches nothing. -/
theorem standsStillExactlyWhenIdleOrHolding : Obligations.StandsStillExactlyWhenIdleOrHolding := by
  intro w y
  constructor
  · intro h
    rcases step_next_or_engineStep y with ⟨t, next⟩ | ⟨waits, own⟩ | ⟨rest, fetched, own⟩
    · exact absurd (next.symm.trans h) nofun
    · exact ⟨waits, fetch_eq_none.1 (engineStep_still.1 (own.symm.trans h))⟩
    · have nothing : fetch y = none := engineStep_still (y := { y with host := rest }).1 (own.symm.trans h)
      rw [nothing] at fetched
      exact absurd fetched nofun
  · rintro ⟨waits, nothing⟩
    exact (step_of_host_waiting waits).trans (engineStep_still.2 (fetch_eq_none.2 nothing))

section

variable {w : Nat} {y z : Engine w}

/-! ### Progress and its one obstacle (70_reset_and_hazards.md R176) -/

/-- A step in ABSORB folds, or advances HANDLED within LEN. -/
theorem EngineMove.progress (m : EngineMove y z) (hp : y.phase = .absorb) (le : y.handled.toNat ≤ y.len.toNat) :
    z.phase = .done ∨
      (z.phase = .absorb ∧ y.handled.toNat < z.handled.toNat ∧ z.handled.toNat ≤ z.len.toNat) := by
  have rem := remaining_toNat le
  cases m with
  | illegalCommand word hp' => exact absurd (hp.symm.trans hp') nofun
  | invalidLength word hp' => exact absurd (hp.symm.trans hp') nofun
  | accept word hp' => exact absurd (hp.symm.trans hp') nofun
  | init hp' => exact absurd (hp.symm.trans hp') nofun
  | block n bs _ h1 h2 =>
    have next : (advance y.handled n).toNat = y.handled.toNat + n := advance_toNat (len := y.len) (by omega)
    refine .inr ⟨hp, ?_⟩
    rw [absorbed_handled, absorbed_len, next]
    omega
  | pair bs cs _ h2 =>
    have next : (advance y.handled 32).toNat = y.handled.toNat + 32 := advance_toNat (len := y.len) (by omega)
    refine .inr ⟨hp, ?_⟩
    simp only [absorbed_handled, absorbed_len, advance_advance, Nat.reduceAdd, next]
    omega
  | fold => exact .inl rfl

theorem EngineMove.portAnswers (m : EngineMove y z) (port : y.PortAnswers) : z.PortAnswers := by
  obtain ⟨-, buf, bufsize, -⟩ := m.frame
  unfold Engine.PortAnswers
  rwa [buf, bufsize]

theorem engineStep_move_of_next (h : engineStep y = .next ⟨w, z⟩) : EngineMove y z := by
  obtain ⟨_, same, move⟩ := engineStep_move h
  obtain rfl := eq_of_heq (State.mk.inj same).2
  exact move

theorem absorb_silent {n off : Nat} (h16 : n ≤ 16) (inside : y.handled.toNat + n ≤ y.bufsize.toNat)
    (lo : y.handled.toNat ≤ off) (hi : off < y.handled.toNat + n) (gap : memByte y.buf off = none) :
    absorb n y = .fault .portSilent :=
  absorb_of_stuck (memRead_silent h16 inside lo hi gap)

/-- A gap in either block of a pair stops it: a gap in the second is met at the latest after the first. -/
theorem absorb_pair_silent {off : Nat} (h : y.handled.toNat + 32 ≤ y.len.toNat) (inside : y.len.toNat ≤ y.bufsize.toNat)
    (lo : y.handled.toNat ≤ off) (hi : off < y.handled.toNat + 32) (gap : memByte y.buf off = none) :
    andThen (absorb 16 y) (absorb 16) = .fault .portSilent := by
  by_cases first : off < y.handled.toNat + 16
  · rw [absorb_silent le_rfl (by omega) lo first gap]
    rfl
  rcases absorb_answersOrSilent (y := y) (n := 16) (by decide) le_rfl (by omega) with ⟨z, next⟩ | silent
  · obtain ⟨b, -, rfl⟩ := absorb_eq_next.1 next
    have from16 := handled_after_first (b := b) h
    rw [next, andThen_next]
    refine absorb_silent (y := absorbed 16 b y) (off := off) le_rfl ?_ ?_ ?_ gap
    · rw [from16, absorbed_bufsize]
      omega
    · omega
    · omega
  · rw [silent]
    rfl

/-- The engine in ABSORB over a port with a gap in the bytes it is to read. -/
theorem engineStep_silent {i : Instr} {n off : Nat} (hc : y.CallOk) (hp : y.phase = .absorb)
    (chosen : decodeMop (selectMop y.len y.handled) = some i)
    (reads : (i = .abs2 ∧ n = 32) ∨ (i = .abs1 ∧ n = 16) ∨ ∃ r, i = .abss r ∧ n = r.toNat)
    (lo : y.handled.toNat ≤ off) (hi : off < y.handled.toNat + n) (gap : memByte y.buf off = none) :
    engineStep y = .fault .portSilent := by
  obtain ⟨inside, -, le, -⟩ := (callOk_absorb_iff hp).1 hc
  obtain rfl := Option.some.inj ((decode_select_eq_mopFor le).symm.trans chosen)
  rcases le.eq_or_lt with eq | lt
  · simp [eq, mopFor_zero] at reads
  by_cases h32 : y.handled.toNat + 32 ≤ y.len.toNat
  · obtain rfl : n = 32 := by simpa [mopFor_pair (show 32 ≤ y.len.toNat - y.handled.toNat by omega)] using reads
    rw [engineStep_pair hp h32, absorb_pair_silent h32 inside lo hi gap]
    rfl
  have count : n = min 16 (y.len.toNat - y.handled.toNat) := by
    by_cases h16 : 16 ≤ y.len.toNat - y.handled.toNat
    · obtain rfl : n = 16 := by simpa [mopFor_block h16 (show y.len.toNat - y.handled.toNat < 32 by omega)] using reads
      omega
    · have short : n = (y.len.toNat - y.handled.toNat) % 2 ^ 4 := by
        simpa [mopFor_short (Nat.sub_pos_of_lt lt) (show y.len.toNat - y.handled.toNat < 16 by omega)] using reads
      omega
  rw [engineStep_block hp lt (by omega), ← count, absorb_silent (by omega) (by omega) lo hi gap]
  rfl

end

/-- Settles O45: the engine's step exists by `exec_mopFor` and brings HANDLED nearer to LEN by `EngineMove.progress`. -/
theorem busyEngineMakesProgress : Obligations.BusyEngineMakesProgress := by
  intro w y inv port hh
  obtain ⟨-, ok⟩ := inv_iff.1 inv
  have own := step_of_host_waiting (.inl hh)
  refine ⟨fun hp => ⟨initialised y, own.trans (engineStep_init hp), rfl, port⟩, fun hp => ?_⟩
  obtain ⟨inside, -, le, -⟩ := (callOk_absorb_iff hp).1 ok.call
  obtain ⟨z, run, -⟩ := exec_mopFor hp le inside port
  have next := (engineStep_absorb hp (decode_select_eq_mopFor le)).trans run
  have move := engineStep_move_of_next next
  refine ⟨z, own.trans next, move.portAnswers port, (move.progress hp le).imp_right fun ⟨hz, further, within⟩ => ⟨hz, ?_⟩⟩
  obtain ⟨-, -, -, -, -, -, kept⟩ := move.frame
  obtain ⟨-, len, -⟩ := kept (by rw [hp]; nofun)
  rw [len] at within ⊢
  omega

/-- Settles O46: a gap in the bytes of the selected operation, by `engineStep_silent` with a pause used up. -/
theorem silentPortLeavesTheEngineStuck : Obligations.SilentPortLeavesTheEngineStuck := by
  intro w y i n off inv waits hp chosen reads lo hi gap
  obtain ⟨-, ok⟩ := inv_iff.1 inv
  obtain ⟨host, used⟩ := pauseUsed_eq y
  rw [fetch_absorb hp, Option.bind_some, decode_mop] at chosen
  rw [step_of_hostWaits waits (by rw [fetch_absorb hp]; rfl), used]
  exact engineStep_silent (y := { y with host := host }) ok.call hp chosen reads lo hi gap

section

variable {w : Nat} {y z : Engine w}

/-! ### Bytes from LEN on (20_memory.md R45) -/

/-- Absorbing depends on the buffer through the bytes it absorbs. -/
theorem absorb_withBuf {m : Memory} {n : Nat}
    (same : ∀ off, off < y.handled.toNat + n → memByte m off = memByte y.buf off) (h : absorb n y = .next z) :
    absorb n { y with buf := m } = .next { z with buf := m } := by
  obtain ⟨b, read, rfl⟩ := absorb_eq_next.1 h
  have bytes : memBytes m y.handled.toNat n = memBytes y.buf y.handled.toNat n :=
    memBytes_congr fun i hi => same _ (by omega)
  have read' : memRead { y with buf := m } y.handled.toNat n = .ok b := by rw [← read, memRead, memRead, bytes]
  exact absorb_of_read (y := { y with buf := m }) read'

theorem absorb_pair_withBuf {m : Memory} (h : y.handled.toNat + 32 ≤ y.len.toNat)
    (same : ∀ off, off < y.len.toNat → memByte m off = memByte y.buf off)
    (run : andThen (absorb 16 y) (absorb 16) = .next z) :
    andThen (absorb 16 { y with buf := m }) (absorb 16) = .next { z with buf := m } := by
  cases first : absorb 16 y with
  | fault f => rw [first] at run; exact absurd run nofun
  | refused r => rw [first] at run; exact absurd run nofun
  | next u =>
    rw [first, andThen_next] at run
    rw [absorb_withBuf (fun off hoff => same off (by omega)) first, andThen_next]
    obtain ⟨b, -, rfl⟩ := absorb_eq_next.1 first
    refine absorb_withBuf (fun off hoff => same off ?_) run
    rw [handled_after_first h] at hoff
    omega

theorem lift_withBuf {r r' : Result (Engine w)} {y' : Engine w} {m : Memory}
    (h : ∀ z, r = .next z → r' = .next { z with buf := m }) (run : State.lift ⟨w, y⟩ r = .next ⟨w, z⟩) :
    State.lift ⟨w, y'⟩ r' = .next ⟨w, { z with buf := m }⟩ := by
  obtain ⟨z', hr, same⟩ := (lift_eq_next _ _ _).1 run
  obtain rfl := eq_of_heq (State.mk.inj same).2
  rw [h z hr]
  rfl

end

/-- Settles O54: FOLD reads nothing, and the blocks lie below LEN. -/
theorem bytesFromLenOnAreNeverRead : Obligations.BytesFromLenOnAreNeverRead := by
  intro w y z m inv hh hp same h
  obtain ⟨-, ok⟩ := inv_iff.1 inv
  obtain ⟨-, -, le, -⟩ := (callOk_absorb_iff hp).1 ok.call
  rw [step_of_host_waiting (.inl hh)] at h
  rw [step_of_host_waiting (y := { y with buf := m }) (.inl hh)]
  rcases le.eq_or_lt with eq | lt
  · have hl : y.handled = y.len := BitVec.eq_of_toNat_eq eq
    rw [engineStep_fold hp hl] at h
    obtain rfl : folded y = z := by simpa using h
    exact engineStep_fold (y := { y with buf := m }) hp hl
  by_cases h32 : y.handled.toNat + 32 ≤ y.len.toNat
  · rw [engineStep_pair hp h32] at h
    rw [engineStep_pair (y := { y with buf := m }) hp h32]
    exact lift_withBuf (fun z run => absorb_pair_withBuf h32 same run) h
  · rw [engineStep_block hp lt (by omega)] at h
    rw [engineStep_block (y := { y with buf := m }) hp lt (show y.len.toNat < y.handled.toNat + 32 by omega)]
    have below : y.handled.toNat + min 16 (y.len.toNat - y.handled.toNat) ≤ y.len.toNat := by omega
    exact lift_withBuf (fun z run => absorb_withBuf (fun off hoff => same off (hoff.trans_le below)) run) h

end Sys2Proof.Machine

namespace Sys2Proof.Machine

section

variable {w : Nat} {y : Engine w}

/-! ### The operations a call executes (41_iteration.md R109) -/

/-- What stays true from START to DONE in a call that nobody disturbs, whatever was read before it. -/
structure Engine.Undisturbed (y : Engine w) : Prop where
  host : y.host = []
  inside : y.len.toNat ≤ y.bufsize.toNat
  port : y.PortAnswers

theorem Engine.Undisturbed.move {z : Engine w} (u : y.Undisturbed) (hp : y.phase ≠ .idle) (m : EngineMove y z) :
    z.Undisturbed := by
  obtain ⟨-, -, bufsize, host, -, -, kept⟩ := m.frame
  obtain ⟨-, len, -⟩ := kept hp
  exact ⟨host.trans u.host, by rw [len, bufsize]; exact u.inside, m.portAnswers u.port⟩

/-- From ABSORB the engine executes the operations its stream has left, and ends in DONE.  Unlike `run_absorbStream` it
asks nothing of H, CAUSE and the record of reads. -/
theorem executed_absorbStream {ops : List Instr} (u : y.Undisturbed) (hp : y.phase = .absorb)
    (le : y.handled.toNat ≤ y.len.toNat) (hops : absorbStream (y.len.toNat - y.handled.toNat) = ops) :
    executed ops.length ⟨w, y⟩ = ops ∧
      ∃ z : Engine w, Host.Core.run core ops.length ⟨w, y⟩ = .next ⟨w, z⟩ ∧ z.phase = .done := by
  induction ops generalizing y with
  | nil =>
    obtain ⟨-, -, rest, h, -⟩ := exec_mopFor hp le u.inside u.port
    exact absurd (hops.symm.trans h) nofun
  | cons i ops ih =>
    obtain ⟨z, run, rest, h, next⟩ := exec_mopFor hp le u.inside u.port
    obtain ⟨rfl, rfl⟩ := List.cons.inj (hops.symm.trans h)
    have chosen := decode_select_eq_mopFor le
    have engine := (engineStep_absorb hp chosen).trans run
    have first := (step_of_host_waiting (.inl u.host)).trans engine
    have move := engineStep_move_of_next engine
    rw [List.length_cons, executed_succ (fetch_absorb hp) chosen first, run_succ first]
    rcases next with ⟨hz, hrest⟩ | ⟨hz, rfl⟩
    · have within := (move.progress hp le).resolve_left (by rw [hz]; nofun)
      obtain ⟨done, ended⟩ := ih (u.move (by rw [hp]; nofun) move) hz within.2.2 hrest.symm
      exact ⟨by rw [done], ended⟩
    · exact ⟨rfl, z, run_zero _, hz⟩

end

theorem stream_length (n : Nat) : (stream n).length =
    2 + n / 32 + (if 16 ≤ n % 32 then 1 else 0) + (if n % 16 ≠ 0 then 1 else 0) := by
  simp only [stream, List.length_append, List.length_replicate, apply_ite List.length, List.length_singleton,
    List.length_nil]
  omega

/-- Settles O48: INIT, and then the stream of ABSORB by `executed_absorbStream`. -/
theorem callExecutesItsStream : Obligations.CallExecutesItsStream := by
  intro w y hp hh inside port
  have u : y.Undisturbed := ⟨hh, inside, port⟩
  have init := (step_of_host_waiting (.inl hh)).trans (engineStep_init hp)
  have u' : (initialised y).Undisturbed := ⟨hh, inside, port⟩
  obtain ⟨done, ended⟩ :=
    executed_absorbStream (y := initialised y) (ops := absorbStream y.len.toNat) u' rfl (Nat.zero_le _) rfl
  refine ⟨?_, ?_, stream_length _⟩
  · rw [stream_eq_cons, List.length_cons, executed_succ (fetch_start hp) rfl init, done]
  · rwa [stream_eq_cons, List.length_cons, run_succ init]

/-! ### Every response ever emitted (20_memory.md R51) -/

/-- A sound run that ended with code 0 carries Hash of the bytes read. -/
theorem digest_of_sound {c : Cipher} {r : Run} {word : BitVec 72} (sound : r.Sound c) (hr : r.response = some word)
    (code : rsCode word = 0x00#8) : rsDigest word = hashOf c (readBytes r.reads) (readBytes r.reads).length := by
  obtain ⟨-, response⟩ := sound
  have ok : decodeRs word = some (.ok (rsDigest word)) := if_pos code
  simpa only [hr, ok] using response

/-- Settles O50: the invariant holds after every run, under the CIPHER of its first state. -/
theorem everyDigestIsHashOfTheBytesRead : Obligations.EveryDigestIsHashOfTheBytesRead := by
  intro k s t inv run r hr word response code
  have kept : t.Inv ∧ t.eng.cipher = s.eng.cipher :=
    run_keeps (P := fun u => u.Inv ∧ u.eng.cipher = s.eng.cipher)
      (fun u v ⟨hu, cipher⟩ h => ⟨stepKeepsTheInvariant u v hu h, (configurationIsFixed u v h).2.trans cipher⟩)
      ⟨inv, rfl⟩ run
  have sound := kept.2 ▸ kept.1.runs_sound r hr
  exact ⟨digest_of_sound sound response code, sound.1⟩

/-! ### The response depends on the input alone (43_host_interface.md R135) -/

/-- Every read of a tiled range takes 16 bytes, or all that are left. -/
theorem tiles_cons_length {lo hi : Nat} {e : ReadEvent} {es : List ReadEvent} (h : tiles lo (e :: es) hi = true) :
    e.bytes.length = min 16 (hi - lo) := by
  simp only [tiles, Bool.and_eq_true, decide_eq_true_eq] at h
  obtain ⟨⟨off, aligned, h1, h16⟩, rest⟩ := h
  have counted := tiles_length rest
  cases es with
  | nil =>
    rw [readBytes_nil, List.length_nil] at counted
    omega
  | cons f fs =>
    simp only [tiles, Bool.and_eq_true, decide_eq_true_eq] at rest
    obtain ⟨⟨off', aligned', -⟩, -⟩ := rest
    omega

/-- The range and the bytes determine the reads. -/
theorem tiles_unique {lo hi : Nat} {es fs : List ReadEvent} (hes : tiles lo es hi = true) (hfs : tiles lo fs hi = true)
    (bytes : readBytes es = readBytes fs) : es = fs := by
  have nonempty {lo : Nat} {e : ReadEvent} {es : List ReadEvent} (h : tiles lo (e :: es) hi = true) : lo ≠ hi := by
    have counted := tiles_length h
    simp only [tiles, Bool.and_eq_true, decide_eq_true_eq] at h
    obtain ⟨⟨-, -, h1, -⟩, -⟩ := h
    rw [readBytes_cons, List.length_append] at counted
    omega
  induction es generalizing lo fs with
  | nil =>
    cases fs with
    | nil => rfl
    | cons f fs => exact absurd (of_decide_eq_true hes) (nonempty hfs)
  | cons e es ih =>
    cases fs with
    | nil => exact absurd (of_decide_eq_true hfs) (nonempty hes)
    | cons f fs =>
      have len : e.bytes.length = f.bytes.length := (tiles_cons_length hes).trans (tiles_cons_length hfs).symm
      rw [readBytes_cons, readBytes_cons] at bytes
      obtain ⟨same, rest⟩ := List.append_inj bytes len
      simp only [tiles, Bool.and_eq_true, decide_eq_true_eq] at hes hfs
      obtain ⟨⟨offe, -⟩, tiledes⟩ := hes
      obtain ⟨⟨offf, -⟩, tiledfs⟩ := hfs
      obtain rfl : es = fs := ih tiledes (len ▸ tiledfs) rest
      obtain rfl : e = f := by
        cases e
        cases f
        simp_all
      rfl

/-- Settles O51: both calls answer Hash of the same bytes, and the bytes determine the reads. -/
theorem responseDependsOnlyOnTheInput : Obligations.ResponseDependsOnlyOnTheInput := by
  intro w y z len hpy hpz hqy hqz hhy hhz hry hrz cipher insidey insidez porty portz same
  obtain ⟨b, bytesy⟩ := memBytes_isSome (m := y.buf) (off := 0) (n := len.toNat) fun i hi => porty _ (by omega)
  have bytesz : memBytes z.buf 0 len.toNat = some b := by
    rw [← bytesy]
    exact memBytes_congr fun i hi => (same _ (by omega)).symm
  obtain ⟨y', readsy, runy, -, runsy, tiledy, answery⟩ :=
    acceptedCallAnswersHash w y len b hpy hqy hhy hry insidey porty bytesy
  obtain ⟨z', readsz, runz, -, runsz, tiledz, answerz⟩ :=
    acceptedCallAnswersHash w z len b hpz hqz hhz hrz insidez portz bytesz
  obtain rfl : readsy = readsz := tiles_unique tiledy tiledz (answery.trans answerz.symm)
  exact ⟨y', z', _, runy, runz, runsy, by rw [runsz, cipher]⟩

end Sys2Proof.Machine

namespace Sys2Proof.Machine

/-! ### MixColumns undoes itself in four applications (40_compress.md R85) -/

theorem xor_left_comm {n : Nat} (a b c : BitVec n) : a ^^^ (b ^^^ c) = b ^^^ (a ^^^ c) := by
  rw [← BitVec.xor_assoc, BitVec.xor_comm a b, BitVec.xor_assoc]

theorem xor_cancel_left {n : Nat} (a b : BitVec n) : a ^^^ (a ^^^ b) = b := by
  rw [← BitVec.xor_assoc, BitVec.xor_self, BitVec.zero_xor]

/-- Doubling in the field is linear over the bits. -/
theorem xtime_xor (a b : Byte) : xtime (a ^^^ b) = xtime a ^^^ xtime b := by
  have reduction (p q : Bool) : (if p ^^ q then 0x1B#8 else 0x00#8) =
      (if p then 0x1B#8 else 0x00#8) ^^^ (if q then 0x1B#8 else 0x00#8) := by cases p <;> cases q <;> rfl
  unfold xtime
  rw [BitVec.shiftLeft_xor_distrib, BitVec.getLsbD_xor, reduction]
  ac_rfl

/-- One column of MixColumns, from the column's bytes. -/
def mixColumn (a : Nat → Byte) (r : Nat) : Byte := mixRow (a 0) (a 1) (a 2) (a 3) r

/-- The exclusive or of a column's four bytes. -/
def columnSum (a : Nat → Byte) : Byte := a 0 ^^^ a 1 ^^^ a 2 ^^^ a 3

/-- A row of MixColumns with its four terms gathered: `3 = 2 + 1` in the field. -/
theorem mixColumn_eq (a : Nat → Byte) (r : Nat) (hr : r < 4) :
    mixColumn a r = a r ^^^ (columnSum a ^^^ (xtime (a r) ^^^ xtime (a ((r + 1) % 4)))) := by
  have rows : r = 0 ∨ r = 1 ∨ r = 2 ∨ r = 3 := by omega
  rcases rows with rfl | rfl | rfl | rfl <;>
    simp only [mixColumn, mixRow, columnSum, times3, Nat.reduceAdd, Nat.reduceMod, BitVec.xor_assoc, BitVec.xor_comm,
      xor_left_comm, xor_cancel_left]

theorem columnSum_mixColumn (a : Nat → Byte) : columnSum (mixColumn a) = columnSum a := by
  rw [columnSum, mixColumn_eq a 0 (by decide), mixColumn_eq a 1 (by decide), mixColumn_eq a 2 (by decide),
    mixColumn_eq a 3 (by decide)]
  generalize hs : columnSum a = s
  simp only [← hs, columnSum, Nat.reduceAdd, Nat.reduceMod, BitVec.xor_assoc, BitVec.xor_comm, xor_left_comm,
    xor_cancel_left, BitVec.xor_self, BitVec.xor_zero]

/-- The square of the matrix of MixColumns has 5 on its diagonal, 4 two places further, and 0 elsewhere. -/
theorem mixColumn_twice (a : Nat → Byte) (r : Nat) (hr : r < 4) :
    mixColumn (mixColumn a) r = a r ^^^ (xtime (xtime (a r)) ^^^ xtime (xtime (a ((r + 2) % 4)))) := by
  have next : ((r + 1) % 4 + 1) % 4 = (r + 2) % 4 := by omega
  rw [mixColumn_eq _ r hr, columnSum_mixColumn, mixColumn_eq a r hr, mixColumn_eq a _ (Nat.mod_lt _ (by decide)), next]
  generalize a r = p, a ((r + 1) % 4) = q, a ((r + 2) % 4) = t, columnSum a = s
  simp only [xtime_xor, BitVec.xor_assoc, xor_left_comm, xor_cancel_left]

theorem mixColumn_congr {a b : Nat → Byte} (h : ∀ i, i < 4 → a i = b i) (r : Nat) : mixColumn a r = mixColumn b r := by
  rw [mixColumn, mixColumn, h 0 (by decide), h 1 (by decide), h 2 (by decide), h 3 (by decide)]

theorem cell_mixColumns_twice (x : Block) (r c : Nat) (hr : r < 4) (hc : c < 4) :
    cell (mixColumns (mixColumns x)) r c =
      cell x r c ^^^ (xtime (xtime (cell x r c)) ^^^ xtime (xtime (cell x ((r + 2) % 4) c))) := by
  rw [← mixColumn_twice (cell x · c) r hr, cell_mixColumns _ r c hr hc]
  exact mixColumn_congr (a := (cell (mixColumns x) · c)) (fun i hi => cell_mixColumns x i c hi hc) r

/-- Once more squared, the products by 4 and by 16 cancel: the fourth power of the matrix is the identity. -/
theorem mixColumns_four_times (x : Block) : mixColumns (mixColumns (mixColumns (mixColumns x))) = x := by
  refine cell_ext fun r c hr hc => ?_
  have hr' : (r + 2) % 4 < 4 := Nat.mod_lt _ (by decide)
  have back : ((r + 2) % 4 + 2) % 4 = r := by omega
  rw [cell_mixColumns_twice _ r c hr hc, cell_mixColumns_twice _ r c hr hc, cell_mixColumns_twice _ _ c hr' hc, back]
  generalize cell x r c = p, cell x ((r + 2) % 4) c = q
  simp only [xtime_xor, BitVec.xor_comm, xor_left_comm, BitVec.xor_self, BitVec.xor_zero]

theorem mixColumns_bijective : Function.Bijective mixColumns :=
  Function.bijective_iff_has_inverse.2 ⟨mixColumns^[3], mixColumns_four_times, mixColumns_four_times⟩

/-! ### Compress for a fixed key (40_compress.md R91) -/

/-- SubBytes acts on each of the 16 bytes by a bijection. -/
theorem subBytes_bijective : Function.Bijective subBytes := by
  rw [← Finite.injective_iff_bijective]
  intro x y h
  refine block_ext fun j hj => sbox_bijective.injective ?_
  rw [← byteOf_subBytes x j hj, ← byteOf_subBytes y j hj, h]

theorem xor_key_bijective (k : Block) : Function.Bijective (· ^^^ k) := by
  have twice (x : Block) : x ^^^ k ^^^ k = x := by rw [BitVec.xor_assoc, BitVec.xor_self, BitVec.xor_zero]
  exact Function.bijective_iff_has_inverse.2 ⟨(· ^^^ k), twice, twice⟩

theorem round1_aes_bijective (k : Block) : Function.Bijective (round1 .aes · k) :=
  (xor_key_bijective k).comp (mixColumns_bijective.comp (shiftRows_bijective.comp subBytes_bijective))

theorem round2_aes_bijective (k : Block) : Function.Bijective (round2 .aes · k) :=
  (xor_key_bijective k).comp (shiftRows_bijective.comp subBytes_bijective)

/-- Settles O13: every layer of the two rounds is a bijection. -/
theorem aesCompressIsBijectiveInM : Obligations.AesCompressIsBijectiveInM :=
  fun k => (round2_aes_bijective k).comp ((round1_aes_bijective k).comp (xor_key_bijective k))

/-! ### Blocks of sixteen equal bytes (40_compress.md R91) -/

/-- The block of sixteen bytes `v`. -/
def uniform (v : Byte) : Block := pack (List.replicate 16 v)

theorem byteOf_uniform (v : Byte) {j : Nat} (hj : j < 16) : byteOf (uniform v) j = v := by
  rw [uniform, byteOf_pack _ j hj, List.getD_replicate _ hj]

theorem cell_uniform (v : Byte) {r c : Nat} (hr : r < 4) (hc : c < 4) : cell (uniform v) r c = v :=
  byteOf_uniform v (by omega)

theorem subBytes_uniform (v : Byte) : subBytes (uniform v) = uniform (sbox v) :=
  block_ext fun j hj => by rw [byteOf_subBytes _ j hj, byteOf_uniform v hj, byteOf_uniform _ hj]

theorem shiftRows_uniform (v : Byte) : shiftRows (uniform v) = uniform v :=
  cell_ext fun r c hr hc => by
    rw [cell_shiftRows _ r c hr hc, cell_uniform v hr (Nat.mod_lt _ (by decide)), cell_uniform v hr hc]

theorem mixColumns_uniform (v : Byte) : mixColumns (uniform v) = uniform v :=
  cell_ext fun r c hr hc => by
    rw [cell_mixColumns _ r c hr hc, cell_uniform v (by decide) hc, cell_uniform v (by decide) hc,
      cell_uniform v (by decide) hc, cell_uniform v (by decide) hc, cell_uniform v hr hc, mixRow_equal_bytes]

theorem uniform_xor (v k : Byte) : uniform v ^^^ uniform k = uniform (v ^^^ k) :=
  block_ext fun j hj => by rw [byteOf_xor, byteOf_uniform v hj, byteOf_uniform k hj, byteOf_uniform _ hj]

theorem getLsbD_uniform (v : Byte) {i : Nat} (hi : i < 128) : (uniform v).getLsbD i = v.getLsbD (i % 8) := by
  have byte := congrArg (·.getLsbD (i % 8)) (byteOf_uniform v (show i / 8 < 16 by omega))
  simpa [byteOf, Nat.mod_lt, Nat.div_add_mod] using byte

/-- The bits that Fold takes together lie 64 apart and are equal. -/
theorem foldBlock_uniform (v : Byte) : foldBlock (uniform v) = 0 := by
  refine BitVec.eq_of_getLsbD_eq fun i hi => ?_
  have apart : (64 + i) % 8 = i % 8 := by omega
  rw [getLsbD_foldBlock _ hi, getLsbD_uniform v (by omega), getLsbD_uniform v (by omega), apart, Bool.xor_self]
  exact BitVec.getLsbD_zero.symm

theorem compress_aes_uniform {m : Block} {v k : Byte} (h : m ^^^ uniform k = uniform v) :
    compress .aes m (uniform k) = uniform (sbox (sbox v ^^^ k) ^^^ k) := by
  rw [compress_aes, h, subBytes_uniform, shiftRows_uniform, mixColumns_uniform, uniform_xor, subBytes_uniform,
    shiftRows_uniform, uniform_xor]

/-- Settles O14: every layer keeps sixteen equal bytes equal. -/
theorem aesCompressKeepsUniformBytes : Obligations.AesCompressKeepsUniformBytes := by
  intro v k m h
  have result := compress_aes_uniform h
  exact ⟨_, result, (congrArg foldBlock result).trans (foldBlock_uniform _)⟩

end Sys2Proof.Machine

namespace Sys2Proof.Machine

/-! ### Hash as a function of the blocks (41_iteration.md R110, R111) -/

theorem hState_congr (c : Cipher) {b b' : List Byte} {q : Nat} (h : ∀ i, i < q → blockAt b i = blockAt b' i) :
    hState c b q = hState c b' q := by
  induction q with
  | zero => rfl
  | succ q ih => rw [hState, hState, h q (Nat.lt_succ_self q), ih fun i hi => h i (Nat.lt_succ_of_lt hi)]

/-- A block of the first `n` bytes: 16 of them, or as many as are left. -/
theorem blockAt_take (b : List Byte) (n i : Nat) :
    blockAt (b.take n) i = pack ((b.drop (16 * i)).take (min 16 (n - 16 * i))) := by
  rw [blockAt, List.drop_take, List.take_take]

/-- The short block is one block more of the first `n` bytes, so that Hash is an iteration over `n / 16` blocks, rounded
up. -/
theorem hEnd_eq_hState (c : Cipher) (b : List Byte) (n : Nat) : hEnd c b n = hState c (b.take n) ((n + 15) / 16) := by
  have full : hState c b (n / 16) = hState c (b.take n) (n / 16) := by
    refine hState_congr c fun i hi => ?_
    rw [blockAt_take, blockAt, min_eq_left (by omega)]
  rw [hEnd]
  split
  case isTrue whole => rw [full, show (n + 15) / 16 = n / 16 by omega]
  case isFalse short =>
    rw [show (n + 15) / 16 = n / 16 + 1 by omega, hState, blockAt_take, full,
      show min 16 (n - 16 * (n / 16)) = n % 16 by omega]

/-- Settles O53: Hash is a function of the blocks of the first `n` bytes, by `hEnd_eq_hState`. -/
theorem hashDependsOnTheBlocksAlone : Obligations.HashDependsOnTheBlocksAlone := by
  refine ⟨fun c b n => ?_, fun c b b' n n' _ _ count blocks => ?_⟩
  · rw [hashOf, hashOf, hEnd_eq_hState, hEnd_eq_hState, List.take_take, min_self]
  · rw [hashOf, hashOf, hEnd_eq_hState, hEnd_eq_hState, ← count, hState_congr c blocks]

/-- Settles O52: the zeros fill the short block further, which Pack does not see. -/
theorem zeroExtendedShortBlockCollides : Obligations.ZeroExtendedShortBlockCollides := by
  intro c b t short fits
  have cut := List.take_append_drop (16 * (b.length / 16)) b
  generalize hfull : b.take (16 * (b.length / 16)) = full at cut
  generalize hrest : b.drop (16 * (b.length / 16)) = rest at cut
  have lenFull : full.length = 16 * (b.length / 16) := by rw [← hfull, List.length_take]; omega
  have lenRest : rest.length = b.length % 16 := by rw [← hrest, List.length_drop]; omega
  have plain := hEnd_step c (b := full) (x := rest) (by omega) (by omega) (by omega)
  have filled := hEnd_step c (b := full) (x := rest ++ List.replicate t 0) (by omega)
    (by rw [List.length_append]; omega) (by rw [List.length_append, List.length_replicate]; omega)
  rw [pack_append_replicate_zero, ← plain, ← List.append_assoc, cut, List.length_append, List.length_replicate,
    ← Nat.add_assoc, ← List.length_append, cut] at filled
  exact congrArg foldBlock filled

/-! ### Several engines (43_host_interface.md R137) -/

theorem stepAt_eq_next {k : Nat} {l l' : List State} :
    stepAt k l = .next l' ↔ ∃ s t, l[k]? = some s ∧ step s = .next t ∧ l' = l.set k t := by
  unfold stepAt
  cases hk : l[k]? with
  | none => simp
  | some s => cases hs : step s <;> simp [hs, eq_comm]

/-- The step of one engine leaves every other where it was. -/
theorem stepAt_others {k j : Nat} {l l' : List State} (h : stepAt k l = .next l') (hj : j ≠ k) : l'[j]? = l[j]? := by
  obtain ⟨s, t, -, -, rfl⟩ := stepAt_eq_next.1 h
  exact List.getElem?_set_ne hj.symm

/-- Settles O55: a step of the system is a step of one element of the list. -/
theorem enginesAreIndependent : Obligations.EnginesAreIndependent := by
  refine ⟨fun k l l' h => ⟨?_, ?_, fun j hj => stepAt_others h hj⟩, fun k l s t hk hs => ?_, fun i j l l₁ l₂ ne hi hj => ?_⟩
  · obtain ⟨s, t, hk, hs, rfl⟩ := stepAt_eq_next.1 h
    obtain ⟨inside, -⟩ := List.getElem?_eq_some_iff.1 hk
    exact ⟨s, t, hk, hs, List.getElem?_set_self inside⟩
  · obtain ⟨s, t, -, -, rfl⟩ := stepAt_eq_next.1 h
    exact List.length_set
  · exact ⟨_, stepAt_eq_next.2 ⟨s, t, hk, hs, rfl⟩⟩
  · obtain ⟨u, u', hu, stepu, rfl⟩ := stepAt_eq_next.1 hj
    rw [stepAt_others hi ne.symm] at hu
    obtain ⟨s, t, hs, steps, rfl⟩ := stepAt_eq_next.1 hi
    refine ⟨l.set j u', stepAt_eq_next.2 ⟨u, u', hu, stepu, rfl⟩, stepAt_eq_next.2 ⟨s, t, ?_, steps, ?_⟩⟩
    · rw [List.getElem?_set_ne ne.symm, hs]
    · exact List.set_comm _ _ ne

end Sys2Proof.Machine
